-- ==== Sys2Proof/Word.lean ====
section
/-! DEFINITION. The word type of the engine: every register, operand and result is one 32-bit unsigned value
(`00_scope.md` R6, FIELD_BITS = 32; `30_encoding.md` R93). -/

namespace Sys2Proof

/-- A 32-bit unsigned register value: FIELD_BITS = 32 (`00_scope.md` R6). Bit 0 is the least significant (R13, R64). -/
abbrev Word := BitVec 32

/-- One byte lane of the bus (`20_memory.md` R64). -/
abbrev Byte := BitVec 8

/-- `Q_MAX`, the largest value a modulus register can hold (`00_scope.md` R6). -/
def qMax : Nat := 2 ^ 32 - 1

end Sys2Proof
end

