-- ==== Sys2Proof/Syntax.lean ====
section
/-! DEFINITION. The syntax of the instruction set: the commands of MIE-CMD version 1 (`00_scope.md` R2), one constructor for
every row of `spec/opcode_table.json` (`30_encoding.md` R92). -/

namespace Sys2Proof

/-- The 18 commands (`30_encoding.md` R92). A command word carries no operand, immediate, register number or mode
(`30_encoding.md` R93), so no constructor has an argument: every operand is read from the snapshot of OP0 to OP4. -/
inductive Instr where
  /-- 0x00 NOP (`44_command_control.md` R265). -/
  | nop
  /-- 0x01 INV (`40_modular_arith.md` R121). -/
  | inv
  /-- 0x02 SQRT (`40_modular_arith.md` R125). -/
  | sqrt
  /-- 0x03 CURVE_LOAD (`41_curve_group.md` R141). -/
  | curveLoad
  /-- 0x04 AT (`41_curve_group.md` R144). -/
  | atX
  /-- 0x05 IS_VALID (`41_curve_group.md` R146). -/
  | isValid
  /-- 0x06 NEG (`41_curve_group.md` R148). -/
  | neg
  /-- 0x07 ADD (`41_curve_group.md` R151). -/
  | add
  /-- 0x08 DBL (`41_curve_group.md` R152). -/
  | dbl
  /-- 0x09 SMUL (`41_curve_group.md` R154). -/
  | smul
  /-- 0x0A ORDER (`41_curve_group.md` R156). -/
  | order
  /-- 0x0B CIPHER_LOAD (`42_elgamal.md` R201). -/
  | cipherLoad
  /-- 0x0C KEYGEN (`42_elgamal.md` R202). -/
  | keygen
  /-- 0x0D ENCRYPT (`42_elgamal.md` R203). -/
  | encrypt
  /-- 0x0E DECRYPT (`42_elgamal.md` R204). -/
  | decrypt
  /-- 0x0F MAP_BUILD (`43_point_encoding.md` R231). -/
  | mapBuild
  /-- 0x10 ENCODE (`43_point_encoding.md` R233). -/
  | encodeSymbol
  /-- 0x11 DECODE (`43_point_encoding.md` R235). -/
  | decodePoint
  deriving DecidableEq, Repr

end Sys2Proof
end

