-- ==== Sys2Proof/WellFormed.lean ====
section
/-! DEFINITION. Well-formedness of a command and of a command word. A command has no operand of its own (`30_encoding.md`
R93, R97), so every term of `Instr` is well formed; what can be ill formed is the 32-bit word written to CMD (R90, R91). -/

namespace Sys2Proof

/-- Every command is well formed: it carries no operand, immediate, register number or mode (`30_encoding.md` R93), and every
opcode of the table has one form (R97). -/
def Instr.wellFormed (i : Instr) : Bool :=
  match i with
  | .nop | .inv | .sqrt | .curveLoad | .atX | .isValid | .neg | .add | .dbl | .smul | .order | .cipherLoad | .keygen
  | .encrypt | .decrypt | .mapBuild | .encodeSymbol | .decodePoint => true

/-- Check 1 of a command word: the reserved field `RSV`, bits [31:8], is 0 (`30_encoding.md` R90). -/
def reservedBitsClear (w : Word) : Bool := w.toNat / 256 == 0

/-- Check 2 of a command word: the opcode field `OPC`, bits [7:0], is assigned (`30_encoding.md` R92: 0x00 to 0x11). -/
def opcodeAssigned (w : Word) : Bool := decide (w.toNat % 256 ≤ 0x11)

/-- A word is legal when both checks hold (`30_encoding.md` R91). -/
def legalWord (w : Word) : Bool := reservedBitsClear w && opcodeAssigned w

end Sys2Proof
end

