-- ==== Sys2Proof/Decode.lean ====
section
/-! DEFINITION. Decoding a command word (`30_encoding.md` R90 to R92, R96, R97) and the encoder. Decoding is total and depends
on no state; a word that is no command is rejected by the name of what is wrong with it. -/

namespace Sys2Proof

/-- Why bytes or a word are no command (`30_encoding.md` R96, R97). -/
inductive IllegalWord where
  /-- Not exactly four bytes: every command is exactly one 32-bit word (R97). -/
  | notOneWord
  /-- Some bit of the reserved field [31:8] is 1 (R90). -/
  | reservedBitsSet
  /-- The opcode is one of 0x12 to 0xFF (R92). -/
  | opcodeUnassigned
  deriving DecidableEq, Repr

/-- The field `OPC`, bits [7:0] (`30_encoding.md` R90). -/
def opcField (w : Word) : BitVec 8 := w.extractLsb' 0 8

/-- The field `RSV`, bits [31:8] (`30_encoding.md` R90). -/
def rsvField (w : Word) : BitVec 24 := w.extractLsb' 8 24

/-- The opcode map of `30_encoding.md` R92. -/
def instrOfOpcode (opc : BitVec 8) : Option Instr :=
  match opc.toNat with
  | 0x00 => some .nop
  | 0x01 => some .inv
  | 0x02 => some .sqrt
  | 0x03 => some .curveLoad
  | 0x04 => some .atX
  | 0x05 => some .isValid
  | 0x06 => some .neg
  | 0x07 => some .add
  | 0x08 => some .dbl
  | 0x09 => some .smul
  | 0x0A => some .order
  | 0x0B => some .cipherLoad
  | 0x0C => some .keygen
  | 0x0D => some .encrypt
  | 0x0E => some .decrypt
  | 0x0F => some .mapBuild
  | 0x10 => some .encodeSymbol
  | 0x11 => some .decodePoint
  | _ => none

/-- `decode(w)` of `30_encoding.md` R91: the reserved bits first, then the opcode. -/
def decode (w : Word) : Except IllegalWord Instr :=
  if rsvField w = 0 then
    match instrOfOpcode (opcField w) with
    | some i => .ok i
    | none => .error .opcodeUnassigned
  else .error .reservedBitsSet

/-- Byte lane `k` of a bus word carries bits [8k+7:8k], the little-endian lane order (`20_memory.md` R64). -/
def lane (k : Nat) (w : Word) : Byte := w.extractLsb' (8 * k) 8

/-- The bus word whose lanes 0 to 3 are the four bytes (`20_memory.md` R64). -/
def wordOfLanes (b0 b1 b2 b3 : Byte) : Word := b3 ++ b2 ++ b1 ++ b0

/-- Decoding of any bytes, lane 0 first: exactly one word is a command (`30_encoding.md` R97, `20_memory.md` R64). -/
def decodeBytes (bs : List Byte) : Except IllegalWord Instr :=
  match bs with
  | [b0, b1, b2, b3] => decode (wordOfLanes b0 b1 b2 b3)
  | _ => .error .notOneWord

/-- The instruction that the bits `w` of an opcode-table row of `nbits` bits decode to (the host's question): the bits are laid
out as one little-endian bus word; what does not fit one word is no command. -/
def decodeTableWord (nbits w : Nat) : Option Instr :=
  let v := w % 2 ^ nbits
  if v < 2 ^ 32 then
    let x := BitVec.ofNat 32 v
    match decodeBytes [lane 0 x, lane 1 x, lane 2 x, lane 3 x] with
    | .ok i => some i
    | .error _ => none
  else none

/-- The opcode of a command, read from the same table (`30_encoding.md` R92). -/
def opcodeOf (i : Instr) : BitVec 8 :=
  match i with
  | .nop => 0x00#8
  | .inv => 0x01#8
  | .sqrt => 0x02#8
  | .curveLoad => 0x03#8
  | .atX => 0x04#8
  | .isValid => 0x05#8
  | .neg => 0x06#8
  | .add => 0x07#8
  | .dbl => 0x08#8
  | .smul => 0x09#8
  | .order => 0x0A#8
  | .cipherLoad => 0x0B#8
  | .keygen => 0x0C#8
  | .encrypt => 0x0D#8
  | .decrypt => 0x0E#8
  | .mapBuild => 0x0F#8
  | .encodeSymbol => 0x10#8
  | .decodePoint => 0x11#8

/-- The command word of an instruction: `RSV` = 0 above `OPC` (`30_encoding.md` R90). -/
def encode (i : Instr) : Word := 0#24 ++ opcodeOf i

end Sys2Proof
end

