-- ==== Sys2Proof/Config.lean ====
section
/-! DEFINITION. What one implementation fixes (`00_scope.md` R6, the parameters `92_eei_decisions.md` leaves OPEN) and the
free values: constants without a body, so that no proof can see a value of one. -/

namespace Sys2Proof

/-- `ID_VALUE`, the value of the ID register (`00_scope.md` R6, `10_state.md` R23). -/
def Config.idValue : Word := 0x45430001#32

/-- `MAP_DEPTH` of the reference instance, 1024 (`00_scope.md` R6, decision D3). MAP_DEPTH is an OPEN parameter, at least 256, that a
model takes as an argument: here the argument is what the register MAPCAP holds (`State.mapcap`), which no step changes, and a
statement about every state is one about every instance. Only `State.reset` uses this value. Log entry 3. -/
def Config.mapDepthReference : Word := 1024#32

/-- The least legal `MAP_DEPTH` (`00_scope.md` R6). -/
def Config.mapDepthMin : Nat := 256

/-- The OPEN part of `ENGINE_BASE` (`20_memory.md` R67, decision D4). One constant for every state: that two engine instances
(`60_exceptions.md` R296) have the same one is the model's choice, DESIGN CHOICE, log entry 12. -/
opaque Config.engineBaseParam : Nat

/-- `ENGINE_BASE`, the bus address of register offset 0x00: OPEN, a multiple of 256 (`20_memory.md` R67). -/
def Config.engineBase : Nat := 256 * Config.engineBaseParam

/-- `IRQ_LINE`, the platform's interrupt input that `irq` drives: OPEN (`60_exceptions.md` R290, decision D4). One constant
for every state: that two engine instances (R296) have the same one is the model's choice, DESIGN CHOICE, log entry 12. -/
opaque Config.irqLine : Nat

/-- FREE VALUE: the two coordinates that MAP RAM entry `i` holds after the `k`-th reset and before MAP_BUILD writes it
(`70_reset_and_hazards.md` R320 "MAP RAM <- unspecified"; `93_implementation_defined.md` §2 items 1 and 2, "any value"). One
constant for every state: that two engine instances (`60_exceptions.md` R296) hold the same values after as many resets is the model's
choice, DESIGN CHOICE, log entry 4. -/
opaque Config.mapPowerUp : Nat → Nat → Word × Word

/-- FREE VALUE: `mod(v, 0)`. The spec defines `mod(v, m)` only for `m > 0` (`00_scope.md` R9). Log entry 5. -/
opaque Config.modByZero : Int → Nat

/-- FREE VALUE: what `ec_add` multiplies by where `inv_search(v, q)` is NONE. The spec shows that this never happens while
CURVE_VALID = 1 (`41_curve_group.md` R150 item 1) and gives no value for it. Log entry 5. -/
opaque Config.missingInverse : Nat → Nat → Nat

end Sys2Proof
end

