-- ==== Sys2Proof/Machine/State.lean ====
section
/-! DEFINITION. The state of the engine as plain data (`10_state.md` R21: the registers of R22, the MAP RAM of R34, the hidden
command state of R41), the error codes, the reasons a step can stop, and the state after reset (`70_reset_and_hazards.md`
R320, R321). Three fields are the model's own and no state of the spec: `schedule`, `hostReads` and `resets`. -/

namespace Sys2Proof.Machine

/-- A point: an ordered pair of 32-bit unsigned values, compared on both coordinates (`00_scope.md` R11). -/
structure Point where
  x : Word
  y : Word
  deriving DecidableEq, Repr

/-- The curve registers CURVE_A, CURVE_B, CURVE_Q (`10_state.md` R37). -/
structure Curve where
  a : Word
  b : Word
  q : Word
  deriving DecidableEq, Repr

/-- Five operand values: the registers OP0 to OP4 (`10_state.md` R35), and the hidden copy `snap[0..4]` (R41). -/
structure Operands where
  op0 : Word
  op1 : Word
  op2 : Word
  op3 : Word
  op4 : Word
  deriving DecidableEq, Repr

/-- The error codes (`60_exceptions.md` R281). No other value is ever written to STATUS.ERR_CODE; `ErrCode.code` (Flags.lean)
gives the 8-bit number of each. -/
inductive ErrCode where
  | noError
  | invalidCurveParameters
  | noSquareRoot
  | noPointAtX
  | invalidGenerator
  | invalidPoint
  | orderNotFound
  | unknownPoint
  | noInverse
  | illegalCommand
  | notReady
  | operandRange
  | symbolRange
  | mapCapacity
  deriving DecidableEq, Repr

/-- The registers of the register map, by name (`10_state.md` R22). -/
inductive Reg where
  | id | ctrl | status | cmd
  | op0 | op1 | op2 | op3 | op4
  | res0 | res1 | res2 | res3
  | curveA | curveB | curveQ | genX | genY | orderN | mapcap
  deriving DecidableEq, Repr

/-- One host access at the engine's port (`20_memory.md` R62, R63, R75): a byte offset in the 256-byte window (R60), how many
bits it moves, its byte-enable pattern, and the data of a write (`none`: a read). -/
structure Access where
  offset : BitVec 8
  width : Nat
  lanes : BitVec 4
  write : Option Word
  deriving DecidableEq, Repr

/-- What can happen next: an access of the host, a turn of the engine, or the reset input (`10_state.md` R20; `20_memory.md` R69,
R75; `70_reset_and_hazards.md` R320). -/
inductive Event where
  | access (a : Access)
  | engine
  | reset
  deriving DecidableEq, Repr

/-- The MAP RAM (`10_state.md` R34): the entries written since the last reset, as pairs of an entry number and a point, the entry
numbers strictly rising. It is addressed by entry number, not by byte (`20_memory.md` R60). -/
abbrev Memory := List (Nat × Point)

/-- The state: everything `10_state.md` R21 lists, each register in one home. ID holds a constant (R23) and has no field; STATUS.BUSY is `pending != NONE` (R26) and STATUS.ERR is `ERR_CODE != 0` (R25), so neither has one. -/
structure State where
  /-- CTRL.IE, the one writable bit of CTRL (R24). -/
  ie : Bool
  /-- STATUS.DONE (R25, R27). -/
  done : Bool
  /-- STATUS.OVR (R25, R28). -/
  ovr : Bool
  /-- STATUS.ERR_CODE (R25, R29). -/
  errCode : ErrCode
  /-- STATUS.CURVE_VALID (R25, R30). -/
  curveValid : Bool
  /-- STATUS.CIPHER_VALID (R25, R31). -/
  cipherValid : Bool
  /-- STATUS.MAP_VALID (R25, R32). -/
  mapValid : Bool
  /-- CMD: the last command word accepted (R33). -/
  cmd : Word
  /-- OP0 to OP4 (R35). -/
  ops : Operands
  /-- RES0 (R36). -/
  res0 : Word
  /-- RES1 (R36). -/
  res1 : Word
  /-- RES2 (R36). -/
  res2 : Word
  /-- RES3 (R36). -/
  res3 : Word
  /-- CURVE_A, CURVE_B, CURVE_Q (R37). -/
  curve : Curve
  /-- GEN_X, GEN_Y (R38). -/
  gen : Point
  /-- ORDER_N (R39). -/
  orderN : Word
  /-- MAPCAP (R40): it always reads MAP_DEPTH, the parameter of this instance (`00_scope.md` R6), and no step changes it. -/
  mapcap : Word
  /-- MAP RAM (R34). -/
  mapRam : Memory
  /-- The hidden `pending`: the accepted command word, or `none` when the engine is idle (R41). -/
  pending : Option Word
  /-- The hidden `snap[0..4]` (R41). -/
  snap : Operands
  /-- THE MODEL'S OWN: the host accesses, engine turns and resets still to come, in their order. A run is one interleaving of
  these (`20_memory.md` R69, R70); a statement about every state is a statement about every interleaving. -/
  schedule : List Event
  /-- THE MODEL'S OWN: what the host has read, the latest first (`44_command_control.md` R268). -/
  hostReads : List (BitVec 8 × Word)
  /-- THE MODEL'S OWN: how many resets there have been; it only selects the free value of an unwritten MAP RAM entry. -/
  resets : Nat
  deriving DecidableEq, Repr

/-- Why the machine stops with a fault. The engine has no stuck state and no trap (`60_exceptions.md` R280, R285;
`93_implementation_defined.md`): a command that fails COMPLETES with an error code. -/
inductive Fault where
  /-- Raised by ENCODE and DECODE where they would read a MAP RAM entry at an index of MAP_DEPTH or more, which does not exist
  (`20_memory.md` R61). Safe: R61 says that no command reads such an index, and no state that satisfies the invariants of
  `10_state.md` R44 raises it. -/
  | mapEntryAbsent
  deriving DecidableEq, Repr

/-- Why the model refuses a step. -/
inductive Refusal where
  /-- Raised by `exec` for an instruction that has no meaning yet: no arm does. Safe. -/
  | notModelled (mnemonic : String)
  /-- Raised by a host access that is misaligned, not 32 bits wide, or without all four byte enables: the engine answers it with a
  bus error and a model refuses it (`20_memory.md` R63, `60_exceptions.md` R297). Safe. -/
  | busError
  deriving DecidableEq, Repr

/-- What a step or a meaning answers. -/
abbrev Out := Host.Outcome State Fault Refusal

/-- `MAP_DEPTH`, the number of entries of the MAP RAM, is what MAPCAP reads (`10_state.md` R40). -/
def State.mapDepth (s : State) : Nat := s.mapcap.toNat

/-- The identity point `IDENT` is `(0, 0)` (`00_scope.md` R12). -/
def ident : Point := ⟨0#32, 0#32⟩

/-- Five operand values of zero. -/
def Operands.zero : Operands := ⟨0#32, 0#32, 0#32, 0#32, 0#32⟩

/-- The state right after reset (`70_reset_and_hazards.md` R320, R321): every register of `10_state.md` R22 at its reset value, no
command pending, no MAP RAM entry written. `snap` is unspecified after reset (R41); the model names 0 (DESIGN CHOICE, unsafe:
log entry 2). MAPCAP holds the MAP_DEPTH of the reference instance (log entry 3). The model's own fields are empty and 0 (log
entries 1 and 4). -/
def State.reset : State where
  ie := false
  done := false
  ovr := false
  errCode := .noError
  curveValid := false
  cipherValid := false
  mapValid := false
  cmd := 0#32
  ops := Operands.zero
  res0 := 0#32
  res1 := 0#32
  res2 := 0#32
  res3 := 0#32
  curve := ⟨0#32, 0#32, 0#32⟩
  gen := ident
  orderN := 0#32
  mapcap := Config.mapDepthReference
  mapRam := []
  pending := none
  snap := Operands.zero
  schedule := []
  hostReads := []
  resets := 0

end Sys2Proof.Machine
end

