-- ==== Sys2Proof/Machine/Flags.lean ====
section
/-! DEFINITION. STATUS, the one flag register (`10_state.md` R25 to R32, R42), the numbers of the error codes (`60_exceptions.md`
R281) and the interrupt output (R290). -/

namespace Sys2Proof.Machine

/-- The 8-bit number of an error code (`60_exceptions.md` R281). -/
def ErrCode.code (e : ErrCode) : BitVec 8 :=
  match e with
  | .noError => 0x00#8
  | .invalidCurveParameters => 0x01#8
  | .noSquareRoot => 0x02#8
  | .noPointAtX => 0x03#8
  | .invalidGenerator => 0x04#8
  | .invalidPoint => 0x05#8
  | .orderNotFound => 0x06#8
  | .unknownPoint => 0x07#8
  | .noInverse => 0x08#8
  | .illegalCommand => 0x10#8
  | .notReady => 0x11#8
  | .operandRange => 0x12#8
  | .symbolRange => 0x13#8
  | .mapCapacity => 0x14#8

/-- STATUS.BUSY: 1 exactly while `pending != NONE` (`10_state.md` R26). -/
def State.busy (s : State) : Bool := s.pending.isSome

/-- STATUS.ERR: always `ERR_CODE != 0` (`10_state.md` R25, R29). -/
def State.err (s : State) : Bool := s.errCode.code != 0x00#8

/-- What a read of STATUS returns, field by field from bit 31 down (`10_state.md` R25): reserved [31:16], ERR_CODE [15:8], reserved
[7], MAP_VALID, CIPHER_VALID, CURVE_VALID, ERR, OVR, DONE, BUSY [0]. -/
def State.statusWord (s : State) : Word :=
  0#16 ++ s.errCode.code ++ 0#1 ++ BitVec.ofBool s.mapValid ++ BitVec.ofBool s.cipherValid ++ BitVec.ofBool s.curveValid
    ++ BitVec.ofBool s.err ++ BitVec.ofBool s.ovr ++ BitVec.ofBool s.done ++ BitVec.ofBool s.busy

/-- What a read of CTRL returns: IE in bit 0, reserved bits 0 (`10_state.md` R24). -/
def State.ctrlWord (s : State) : Word := 0#31 ++ BitVec.ofBool s.ie

/-- A host write to STATUS: a 1 in bit 1 clears DONE, a 1 in bit 2 clears OVR, every other bit is ignored (`10_state.md` R25). This
is also how the host acknowledges a completion; there is no return from a trap (`60_exceptions.md` R286). -/
def writeStatus (v : Word) (s : State) : State :=
  { s with done := s.done && !v.getLsbD 1, ovr := s.ovr && !v.getLsbD 2 }

/-- A host write to CTRL stores bit 0 (`10_state.md` R24). -/
def writeCtrl (v : Word) (s : State) : State := { s with ie := v.getLsbD 0 }

/-- The interrupt output, a level: `irq = CTRL.IE AND STATUS.DONE` (`60_exceptions.md` R290). -/
def State.irq (s : State) : Bool := s.ie && s.done

end Sys2Proof.Machine
end

