-- ==== Sys2Proof/Machine/Arith.lean ====
section
/-! DEFINITION. Exact integer arithmetic and the bounded searches of the pseudocode (`00_scope.md` R7, R9, R13;
`40_modular_arith.md` R120, R124; `41_curve_group.md` R140). Every value here is a mathematical integer: nothing wraps. -/

namespace Sys2Proof.Machine

/-- `mod(v, m)`: the residue in `[0, m)`, never negative (`00_scope.md` R9). The spec defines it for `m > 0` only; at `m = 0` it
is a free value (log entry 5). -/
def mod (v : Int) (m : Nat) : Nat := if m = 0 then Config.modByZero v else (v % (m : Int)).toNat

/-- The first `t` of `lo, lo + 1, …` (`n` candidates) with `p t`. -/
def leastFrom (p : Nat → Bool) : Nat → Nat → Option Nat
  | 0, _ => none
  | n + 1, lo => if p lo then some lo else leastFrom p n (lo + 1)

/-- `least t in [lo, hi) with p(t)`, or NONE (`00_scope.md` R13). -/
def least (lo hi : Nat) (p : Nat → Bool) : Option Nat := leastFrom p (hi - lo) lo

/-- `inv_search(v, m)`: the least `t` in `[0, m)` with `mod(v·t, m) = 1` (`40_modular_arith.md` R120). -/
def invSearch (v : Int) (m : Nat) : Option Nat := least 0 m (fun t => mod (v * t) m == 1)

/-- `sqrt_search(n, m)`: the least `i` in `[1, m)` with `mod(i·i, m) = n` (`40_modular_arith.md` R124). -/
def sqrtSearch (n m : Nat) : Option Nat := least 1 m (fun i => mod ((i : Int) * i) m == n)

/-- `is_prime(v)`: `v >= 2` and no `d` with `2 <= d < v` divides `v` (`41_curve_group.md` R140). -/
def isPrime (v : Nat) : Bool := decide (2 ≤ v) && (least 2 v (fun d => v % d == 0)).isNone

/-- A value stored in a 32-bit register (`00_scope.md` R7: every stored result fits). -/
def toWord (v : Nat) : Word := BitVec.ofNat 32 v

end Sys2Proof.Machine
end

