-- ==== Sys2Proof/Machine/Curve.lean ====
section
/-! DEFINITION. The curve and its group law: the functions that the pseudocode of `41_curve_group.md` and `42_elgamal.md` shares
(R141's check, R143, R145, R147, R149, R153, R155). -/

namespace Sys2Proof.Machine

/-- The four conditions of CURVE_LOAD, in the order of its pseudocode (`41_curve_group.md` R141). -/
def curveOk (c : Curve) : Bool :=
  let a := c.a.toNat
  let b := c.b.toNat
  let q := c.q.toNat
  decide (2 < q) && isPrime q
    && (decide (0 < a) && decide (a < q))
    && (decide (0 < b) && decide (b < q))
    && (mod (4 * (a : Int) ^ 3 + 27 * (b : Int) ^ 2) q != 0)

/-- `rhs(x) = mod(x³ + A·x + B, Q)` (`41_curve_group.md` R143). -/
def rhs (c : Curve) (x : Nat) : Nat := mod ((x : Int) ^ 3 + c.a.toNat * x + c.b.toNat) c.q.toNat

/-- Both coordinates are field elements, that is, below Q (`00_scope.md` R10). -/
def inField (c : Curve) (p : Point) : Bool := decide (p.x.toNat < c.q.toNat) && decide (p.y.toNat < c.q.toNat)

/-- `valid(P)` (`41_curve_group.md` R145): both coordinates below Q, and P is IDENT or satisfies the curve equation. -/
def valid (c : Curve) (p : Point) : Bool :=
  let x : Int := p.x.toNat
  let y : Int := p.y.toNat
  inField c p && (decide (p = ident) || mod (y ^ 2 - (x ^ 3 + c.a.toNat * x + c.b.toNat)) c.q.toNat == 0)

/-- `ec_neg((x, y)) = (x, mod(−y, Q))` (`41_curve_group.md` R147). -/
def ecNeg (c : Curve) (p : Point) : Point := ⟨p.x, toWord (mod (-(p.y.toNat : Int)) c.q.toNat)⟩

/-- The inverse that a slope is multiplied by: `inv_search(v, Q)` (`41_curve_group.md` R149). R150 item 1: the search never fails
while CURVE_VALID = 1; where it would, the model takes a free value (log entry 5). -/
def slopeInverse (c : Curve) (v : Nat) : Nat :=
  match invSearch v c.q.toNat with
  | some t => t
  | none => Config.missingInverse v c.q.toNat

/-- The point of slope `l` through `(x1, _)` and `(x2, _)`: the last three lines of R149. -/
def chordPoint (c : Curve) (l : Nat) (x1 y1 x2 : Int) : Point :=
  let x3 := mod ((l : Int) ^ 2 - x1 - x2) c.q.toNat
  let y3 := mod ((l : Int) * (x1 - x3) - y1) c.q.toNat
  ⟨toWord x3, toWord y3⟩

/-- `ec_add(P1, P2)`, in the source's order of cases (`41_curve_group.md` R149). B is not read (R150 item 5). -/
def ecAdd (c : Curve) (p1 p2 : Point) : Point :=
  let q := c.q.toNat
  let x1 : Int := p1.x.toNat
  let y1 : Int := p1.y.toNat
  let x2 : Int := p2.x.toNat
  let y2 : Int := p2.y.toNat
  if p1 = ident then p2
  else if p2 = ident then p1
  else if p1.x = p2.x ∧ (p1.y ≠ p2.y ∨ p1.y = 0#32) then ident
  else if p1 = p2 then
    chordPoint c (mod ((3 * x1 ^ 2 + c.a.toNat) * slopeInverse c (mod (2 * y1) q)) q) x1 y1 x2
  else
    chordPoint c (mod ((y2 - y1) * slopeInverse c (mod (x2 - x1) q)) q) x1 y1 x2

/-- The loop of `ec_smul` (`41_curve_group.md` R153): accumulator `r`, running point `t`, remaining scalar `j`. The first argument
only bounds the number of rounds; `j` rounds are always enough, since `j` is halved in each. -/
def smulLoop (c : Curve) : Nat → Point → Point → Nat → Point
  | 0, r, _, _ => r
  | n + 1, r, t, j =>
    if j = 0 then r
    else smulLoop c n (if j % 2 = 1 then ecAdd c r t else r) (ecAdd c t t) (j / 2)

/-- `ec_smul(P, k)`: double-and-add from IDENT (`41_curve_group.md` R153). -/
def ecSmul (c : Curve) (p : Point) (k : Nat) : Point := smulLoop c k ident p k

/-- `ec_order(P)`: the least `i` in `[1, Q + 1)` with `ec_smul(P, i) = IDENT` (`41_curve_group.md` R155). -/
def ecOrder (c : Curve) (p : Point) : Option Nat :=
  least 1 (c.q.toNat + 1) (fun i => decide (ecSmul c p i = ident))

end Sys2Proof.Machine
end

