-- ==== Sys2Proof/Machine/Operands.lean ====
section
/-! DEFINITION. The operand forms of `30_encoding.md` R93 to R95. Every operand of a running command is `op[i] = snap[i]`, the value
that OPi held when the command was accepted (`44_command_control.md` R261), used as a plain unsigned integer (R93). -/

namespace Sys2Proof.Machine

/-- The first operand point, kind **coord** in slots 0 and 1 (`30_encoding.md` R94). -/
def State.opPoint01 (s : State) : Point := ⟨s.snap.op0, s.snap.op1⟩

/-- The second operand point, kind **coord** in slots 2 and 3 (`30_encoding.md` R94). -/
def State.opPoint23 (s : State) : Point := ⟨s.snap.op2, s.snap.op3⟩

/-- The coordinate x of AT, kind **coord** in slot 0 (`30_encoding.md` R95). -/
def State.opX (s : State) : Nat := s.snap.op0.toNat

/-- The number that INV inverts or SQRT takes the root of, slot 0 (`30_encoding.md` R95). -/
def State.opValue (s : State) : Nat := s.snap.op0.toNat

/-- The modulus of INV and SQRT, kind **mod** in slot 1: from the operand, not from CURVE_Q (`30_encoding.md` R94). -/
def State.opModulus (s : State) : Nat := s.snap.op1.toNat

/-- The curve parameters of CURVE_LOAD, kind **param** in slots 0 to 2 (`30_encoding.md` R94, R95). -/
def State.opCurve (s : State) : Curve := ⟨s.snap.op0, s.snap.op1, s.snap.op2⟩

/-- The multiplier (k, priv, r), kind **scalar**, always slot 4 (`30_encoding.md` R94). -/
def State.opScalar (s : State) : Nat := s.snap.op4.toNat

/-- The symbol of ENCODE, kind **sym**, always slot 0 (`30_encoding.md` R94). -/
def State.opSymbol (s : State) : Nat := s.snap.op0.toNat

end Sys2Proof.Machine
end

