-- ==== Sys2Proof/Machine/Ops.lean ====
section
/-! DEFINITION. The operations the commands and the host share: the MAP RAM, the result registers, the acceptance and the
completion of a command (`44_command_control.md` R260 to R264), reporting an error (`60_exceptions.md` R280), the register window
(`10_state.md` R22), host accesses (`20_memory.md` R63) and reset (`70_reset_and_hazards.md` R320). -/

namespace Sys2Proof.Machine

/-! ### The MAP RAM (`20_memory.md` R61) -/

/-- The point written to entry `i` since the last reset, or none. -/
def Memory.read : Memory → Nat → Option Point
  | [], _ => none
  | (j, p) :: m, i => if i = j then some p else if i < j then none else Memory.read m i

/-- `MapWrite(i, P)` (`20_memory.md` R61); the entry numbers stay strictly rising. -/
def Memory.write : Memory → Nat → Point → Memory
  | [], i, p => [(i, p)]
  | (j, q) :: m, i, p =>
    if i < j then (i, p) :: (j, q) :: m
    else if i = j then (i, p) :: m
    else (j, q) :: Memory.write m i p

/-- Every entry number of the list is above `lo` and they rise strictly. -/
def Memory.risingFrom : Nat → Memory → Bool
  | _, [] => true
  | lo, (i, _) :: m => decide (lo < i) && Memory.risingFrom i m

/-- The canonical form: entry numbers strictly rising. An unlisted entry has no value of its own, so no entry can equal it. -/
def Memory.wf : Memory → Bool
  | [] => true
  | (i, _) :: m => Memory.risingFrom i m

/-- Writes entries 0 to `n - 1`, entry `i` with `f i`: the loop of MAP_BUILD (`43_point_encoding.md` R231). -/
def Memory.fill (f : Nat → Point) : Nat → Memory → Memory
  | 0, m => m
  | n + 1, m => Memory.write (Memory.fill f n m) n (f n)

/-- The point that entry `i` holds after the `k`-th reset before anything is written to it: a free value (log entry 4,
which also says what it makes of two instances). -/
def powerUpPoint (k i : Nat) : Point := ⟨(Config.mapPowerUp k i).1, (Config.mapPowerUp k i).2⟩

/-- `MapRead(i)` (`20_memory.md` R61). -/
def mapRead (s : State) (i : Nat) : Point :=
  match Memory.read s.mapRam i with
  | some p => p
  | none => powerUpPoint s.resets i

/-! ### Result registers (`10_state.md` R36) -/

/-- `res[0] <- v` (`00_scope.md` R13). -/
def State.setRes0 (v : Word) (s : State) : State := { s with res0 := v }

/-- `res[0] <- v; res[1] <- w` (`00_scope.md` R13). -/
def State.setRes01 (v w : Word) (s : State) : State := { s with res0 := v, res1 := w }

/-- `res[2] <- v; res[3] <- w` (`00_scope.md` R13). -/
def State.setRes23 (v w : Word) (s : State) : State := { s with res2 := v, res3 := w }

/-! ### Configuration writes -/

/-- The writes of a successful CURVE_LOAD (`41_curve_group.md` R141). -/
def State.installCurve (c : Curve) (s : State) : State :=
  { s with
    curve := c, gen := ident, orderN := 0#32
    curveValid := true, cipherValid := false, mapValid := false }

/-- The configuration writes of a successful CIPHER_LOAD (`42_elgamal.md` R201). -/
def State.installCipher (g : Point) (n : Word) (s : State) : State :=
  { s with gen := g, orderN := n, cipherValid := true, mapValid := false }

/-- The writes of a successful MAP_BUILD: entries 0 to N - 1 and MAP_VALID (`43_point_encoding.md` R231). -/
def State.installMap (f : Nat → Point) (s : State) : State :=
  { s with mapRam := Memory.fill f s.orderN.toNat s.mapRam, mapValid := true }

/-! ### Completion, success and error -/

/-- Completion with code `e` (`44_command_control.md` R263): ERR_CODE is written, BUSY falls (`pending <- NONE`), DONE rises. -/
def State.complete (e : ErrCode) (s : State) : State := { s with errCode := e, done := true, pending := none }

/-- The successful end of a command body: its writes (already in `s`) take effect together with the completion (R263). -/
def succeed (s : State) : Out := .next (s.complete .noError)

/-- `raise E`: the command ends at once with error code E and none of its writes (`60_exceptions.md` R280,
`44_command_control.md` R264). `s` is the state before any write of the command. This is the engine's whole exception mechanism:
no state is saved, no mode changes and there is no vector (R285). -/
def raise (e : ErrCode) (s : State) : Out := .next (s.complete e)

/-- The readiness check of the common prologue: NOT_READY when the flag the command needs is 0, else its body
(`44_command_control.md` R266, `60_exceptions.md` R283 step 2). -/
def needs (flag : Bool) (s : State) (body : Out) : Out := if flag then body else raise .notReady s

/-! ### Acceptance -/

/-- Acceptance of the command word `w` by the idle engine (`44_command_control.md` R260). -/
def accept (w : Word) (s : State) : State :=
  { s with cmd := w, snap := s.ops, pending := some w, done := false, errCode := .noError }

/-- A host write to CMD: accepted when idle (`44_command_control.md` R260), ignored with OVR set when busy (R262). -/
def writeCmd (w : Word) (s : State) : State :=
  match s.pending with
  | none => accept w s
  | some _ => { s with ovr := true }

/-! ### The register window (`10_state.md` R22) -/

/-- The register at a byte offset, or none for a reserved offset (`10_state.md` R22). -/
def regAt (off : BitVec 8) : Option Reg :=
  match off.toNat with
  | 0x00 => some .id
  | 0x04 => some .ctrl
  | 0x08 => some .status
  | 0x0C => some .cmd
  | 0x10 => some .op0
  | 0x14 => some .op1
  | 0x18 => some .op2
  | 0x1C => some .op3
  | 0x20 => some .op4
  | 0x30 => some .res0
  | 0x34 => some .res1
  | 0x38 => some .res2
  | 0x3C => some .res3
  | 0x40 => some .curveA
  | 0x44 => some .curveB
  | 0x48 => some .curveQ
  | 0x4C => some .genX
  | 0x50 => some .genY
  | 0x54 => some .orderN
  | 0x58 => some .mapcap
  | _ => none

/-- The value a read of a register returns; no read has a side effect on the engine (`20_memory.md` R66). -/
def readReg (r : Reg) (s : State) : Word :=
  match r with
  | .id => Config.idValue
  | .ctrl => s.ctrlWord
  | .status => s.statusWord
  | .cmd => s.cmd
  | .op0 => s.ops.op0
  | .op1 => s.ops.op1
  | .op2 => s.ops.op2
  | .op3 => s.ops.op3
  | .op4 => s.ops.op4
  | .res0 => s.res0
  | .res1 => s.res1
  | .res2 => s.res2
  | .res3 => s.res3
  | .curveA => s.curve.a
  | .curveB => s.curve.b
  | .curveQ => s.curve.q
  | .genX => s.gen.x
  | .genY => s.gen.y
  | .orderN => s.orderN
  | .mapcap => s.mapcap

/-- What a host write to a register does (`20_memory.md` R66): CMD issues a command, STATUS clears W1C bits, CTRL and OP0 to OP4
store; a write to a read-only register is ignored without error (`10_state.md` R43). -/
def writeReg (r : Reg) (v : Word) (s : State) : State :=
  match r with
  | .ctrl => writeCtrl v s
  | .status => writeStatus v s
  | .cmd => writeCmd v s
  | .op0 => { s with ops := { s.ops with op0 := v } }
  | .op1 => { s with ops := { s.ops with op1 := v } }
  | .op2 => { s with ops := { s.ops with op2 := v } }
  | .op3 => { s with ops := { s.ops with op3 := v } }
  | .op4 => { s with ops := { s.ops with op4 := v } }
  | .id | .res0 | .res1 | .res2 | .res3 | .curveA | .curveB | .curveQ | .genX | .genY | .orderN | .mapcap => s

/-- `BusRead(off)`: a reserved offset reads 0 (`10_state.md` R43). -/
def busRead (off : BitVec 8) (s : State) : Word :=
  match regAt off with
  | some r => readReg r s
  | none => 0#32

/-- `BusWrite(off, v)`: a write to a reserved offset has no effect (`10_state.md` R43). -/
def busWrite (off : BitVec 8) (v : Word) (s : State) : State :=
  match regAt off with
  | some r => writeReg r v s
  | none => s

/-- The bus address of a register offset: the window starts at ENGINE_BASE (`20_memory.md` R67). -/
def busAddress (off : BitVec 8) : Nat := Config.engineBase + off.toNat

/-! ### The host and the reset input -/

/-- The one kind of access the engine admits: an aligned offset, 32 bits, all four byte enables (`20_memory.md` R63). -/
def Access.admitted (a : Access) : Bool :=
  decide (a.offset.toNat % 4 = 0) && decide (a.width = 32) && decide (a.lanes = 0b1111#4)

/-- One host access (`20_memory.md` R63, R75): an admitted read gives the host the register's value, an admitted write acts on the
register, any other access is refused and changes nothing (`60_exceptions.md` R297). -/
def hostAccess (a : Access) (s : State) : Out :=
  if a.admitted then
    match a.write with
    | none => .next { s with hostReads := (a.offset, busRead a.offset s) :: s.hostReads }
    | some v => .next (busWrite a.offset v s)
  else .refused .busError

/-- The reset input (`70_reset_and_hazards.md` R320): the state of R321, whatever was pending. What the host has read and what is
still scheduled lie outside the engine and stay; MAPCAP reads MAP_DEPTH as ever. -/
def resetInput (s : State) : State :=
  { State.reset with
    mapcap := s.mapcap, schedule := s.schedule, hostReads := s.hostReads, resets := s.resets + 1 }

/-- The word the engine's next turn runs: `pending` takes the place of a program counter (`10_state.md` R45). -/
def fetch (s : State) : Option Word := s.pending

end Sys2Proof.Machine
end

