-- ==== Sys2Proof/Machine/Control.lean ====
section
/-! DEFINITION. Command control: NOP (`44_command_control.md` R265). -/

namespace Sys2Proof.Machine

/-- NOP (`44_command_control.md` R265): the body is empty; the command completes with ERR_CODE 0x00. -/
def execNop (s : State) : Out := succeed s

end Sys2Proof.Machine
end

