-- ==== Sys2Proof/Machine/CurveGroup.lean ====
section
/-! DEFINITION. The elliptic curve group commands CURVE_LOAD, AT, IS_VALID, NEG, ADD, DBL, SMUL, ORDER (`41_curve_group.md`). -/

namespace Sys2Proof.Machine

/-- CURVE_LOAD (`41_curve_group.md` R141). -/
def execCurveLoad (s : State) : Out :=
  if curveOk s.opCurve then succeed (s.installCurve s.opCurve) else raise .invalidCurveParameters s

/-- AT (`41_curve_group.md` R144). -/
def execAtX (s : State) : Out :=
  needs s.curveValid s <|
    if s.curve.q.toNat ≤ s.opX then raise .operandRange s
    else
      match sqrtSearch (rhs s.curve s.opX) s.curve.q.toNat with
      | none => raise .noPointAtX s
      | some i =>
        succeed ((s.setRes01 (toWord s.opX) (toWord i)).setRes23 (toWord s.opX) (toWord (s.curve.q.toNat - i)))

/-- IS_VALID (`41_curve_group.md` R146). -/
def execIsValid (s : State) : Out :=
  needs s.curveValid s <|
    succeed (s.setRes0 (if valid s.curve s.opPoint01 then 1#32 else 0#32))

/-- NEG (`41_curve_group.md` R148). -/
def execNeg (s : State) : Out :=
  needs s.curveValid s <|
    if inField s.curve s.opPoint01 then
      let r := ecNeg s.curve s.opPoint01
      succeed (s.setRes01 r.x r.y)
    else raise .operandRange s

/-- ADD (`41_curve_group.md` R151). -/
def execAdd (s : State) : Out :=
  needs s.curveValid s <|
    if inField s.curve s.opPoint01 && inField s.curve s.opPoint23 then
      let r := ecAdd s.curve s.opPoint01 s.opPoint23
      succeed (s.setRes01 r.x r.y)
    else raise .operandRange s

/-- DBL (`41_curve_group.md` R152): ADD with both operands equal. -/
def execDbl (s : State) : Out :=
  needs s.curveValid s <|
    if inField s.curve s.opPoint01 then
      let r := ecAdd s.curve s.opPoint01 s.opPoint01
      succeed (s.setRes01 r.x r.y)
    else raise .operandRange s

/-- SMUL (`41_curve_group.md` R154). -/
def execSmul (s : State) : Out :=
  needs s.curveValid s <|
    if inField s.curve s.opPoint01 then
      let r := ecSmul s.curve s.opPoint01 s.opScalar
      succeed (s.setRes01 r.x r.y)
    else raise .operandRange s

/-- ORDER (`41_curve_group.md` R156). -/
def execOrder (s : State) : Out :=
  needs s.curveValid s <|
    if valid s.curve s.opPoint01 && s.opPoint01 != ident then
      match ecOrder s.curve s.opPoint01 with
      | none => raise .orderNotFound s
      | some i => succeed (s.setRes0 (toWord i))
    else raise .invalidPoint s

end Sys2Proof.Machine
end

