-- ==== Sys2Proof/Machine/ElGamal.lean ====
section
/-! DEFINITION. The ElGamal commands CIPHER_LOAD, KEYGEN, ENCRYPT, DECRYPT (`42_elgamal.md`). -/

namespace Sys2Proof.Machine

/-- CIPHER_LOAD (`42_elgamal.md` R201). -/
def execCipherLoad (s : State) : Out :=
  needs s.curveValid s <|
    if valid s.curve s.opPoint01 && s.opPoint01 != ident then
      match ecOrder s.curve s.opPoint01 with
      | none => raise .orderNotFound s
      | some n => succeed ((s.installCipher s.opPoint01 (toWord n)).setRes0 (toWord n))
    else raise .invalidGenerator s

/-- KEYGEN (`42_elgamal.md` R202): the private scalar is not checked. -/
def execKeygen (s : State) : Out :=
  needs s.cipherValid s <|
    let r := ecSmul s.curve s.gen s.opScalar
    succeed (s.setRes01 r.x r.y)

/-- ENCRYPT (`42_elgamal.md` R203): plain is checked before pub. -/
def execEncrypt (s : State) : Out :=
  needs s.cipherValid s <|
    if valid s.curve s.opPoint01 then
      if valid s.curve s.opPoint23 then
        let c1 := ecSmul s.curve s.gen s.opScalar
        let c2 := ecAdd s.curve s.opPoint01 (ecSmul s.curve s.opPoint23 s.opScalar)
        succeed ((s.setRes01 c1.x c1.y).setRes23 c2.x c2.y)
      else raise .invalidPoint s
    else raise .invalidPoint s

/-- DECRYPT (`42_elgamal.md` R204): c1 is checked before c2. -/
def execDecrypt (s : State) : Out :=
  needs s.cipherValid s <|
    if valid s.curve s.opPoint01 then
      if valid s.curve s.opPoint23 then
        let r := ecAdd s.curve s.opPoint23 (ecNeg s.curve (ecSmul s.curve s.opPoint01 s.opScalar))
        succeed (s.setRes01 r.x r.y)
      else raise .invalidPoint s
    else raise .invalidPoint s

end Sys2Proof.Machine
end

