-- ==== Sys2Proof/Machine/ModArith.lean ====
section
/-! DEFINITION. The modular arithmetic commands INV and SQRT (`40_modular_arith.md`). Neither needs a STATUS flag. -/

namespace Sys2Proof.Machine

/-- INV (`40_modular_arith.md` R121). -/
def execInv (s : State) : Out :=
  match invSearch s.opValue s.opModulus with
  | none => raise .noInverse s
  | some t => succeed (s.setRes0 (toWord t))

/-- SQRT (`40_modular_arith.md` R125). -/
def execSqrt (s : State) : Out :=
  let n := s.opValue
  let m := s.opModulus
  if m ≤ n then raise .operandRange s
  else
    match sqrtSearch n m with
    | none => raise .noSquareRoot s
    | some i => succeed (s.setRes01 (toWord i) (toWord (m - i)))

end Sys2Proof.Machine
end

