-- ==== Sys2Proof/Machine/PointEncoding.lean ====
section
/-! DEFINITION. The point-encoding commands MAP_BUILD, ENCODE, DECODE (`43_point_encoding.md`). -/

namespace Sys2Proof.Machine

/-- `mapping[i] = ec_smul(G, i)`, the encoding map of the cipher context (`43_point_encoding.md` R230). -/
def mapping (s : State) (i : Nat) : Point := ecSmul s.curve s.gen i

/-- MAP_BUILD (`43_point_encoding.md` R231). -/
def execMapBuild (s : State) : Out :=
  needs s.cipherValid s <|
    if s.mapDepth < s.orderN.toNat then raise .mapCapacity s
    else succeed (s.installMap (mapping s))

/-- ENCODE (`43_point_encoding.md` R233). An entry at MAP_DEPTH or more does not exist (`20_memory.md` R61). -/
def execEncodeSymbol (s : State) : Out :=
  needs s.mapValid s <|
    if s.orderN.toNat ≤ s.opSymbol then raise .symbolRange s
    else if s.mapDepth ≤ s.opSymbol then .fault .mapEntryAbsent
    else
      let r := mapRead s s.opSymbol
      succeed (s.setRes01 r.x r.y)

/-- DECODE (`43_point_encoding.md` R235): the least index below N whose entry equals the operand. The search reads the entries that
exist; it would have to read one that does not only where none of those matches and N is above MAP_DEPTH (`20_memory.md` R61). -/
def execDecodePoint (s : State) : Out :=
  needs s.mapValid s <|
    match least 0 (min s.orderN.toNat s.mapDepth) (fun i => decide (mapRead s i = s.opPoint01)) with
    | some i => succeed (s.setRes0 (toWord i))
    | none => if s.mapDepth < s.orderN.toNat then .fault .mapEntryAbsent else raise .unknownPoint s

end Sys2Proof.Machine
end

