-- ==== Sys2Proof/Machine/Dispatch.lean ====
section
/-! DEFINITION. `exec`: the completion of an accepted legal command (`44_command_control.md` R263, R266), one arm per command. -/

namespace Sys2Proof.Machine

def exec (i : Instr) (s : State) : Host.Outcome State Fault Refusal :=
  match i with
  | .nop => Sys2Proof.Machine.execNop s
  | .inv => Sys2Proof.Machine.execInv s
  | .sqrt => Sys2Proof.Machine.execSqrt s
  | .curveLoad => Sys2Proof.Machine.execCurveLoad s
  | .atX => Sys2Proof.Machine.execAtX s
  | .isValid => Sys2Proof.Machine.execIsValid s
  | .neg => Sys2Proof.Machine.execNeg s
  | .add => Sys2Proof.Machine.execAdd s
  | .dbl => Sys2Proof.Machine.execDbl s
  | .smul => Sys2Proof.Machine.execSmul s
  | .order => Sys2Proof.Machine.execOrder s
  | .cipherLoad => Sys2Proof.Machine.execCipherLoad s
  | .keygen => Sys2Proof.Machine.execKeygen s
  | .encrypt => Sys2Proof.Machine.execEncrypt s
  | .decrypt => Sys2Proof.Machine.execDecrypt s
  | .mapBuild => Sys2Proof.Machine.execMapBuild s
  | .encodeSymbol => Sys2Proof.Machine.execEncodeSymbol s
  | .decodePoint => Sys2Proof.Machine.execDecodePoint s

end Sys2Proof.Machine
end

