-- ==== Sys2Proof/Machine/Engine.lean ====
section
/-! DEFINITION. The engine's own turn (`10_state.md` R20): the completion of the pending command (`44_command_control.md` R263). -/

namespace Sys2Proof.Machine

/-- Completion of the accepted word `w` (`44_command_control.md` R263, R266): an illegal word completes with ILLEGAL_COMMAND
(`30_encoding.md` R96, `60_exceptions.md` R283 step 1), a legal word runs its command. -/
def completeWord (w : Word) (s : State) : Out :=
  match decode w with
  | .ok i => exec i s
  | .error _ => raise .illegalCommand s

/-- A turn of the engine: it completes the pending command; with none pending the engine is idle and all state is kept
(`60_exceptions.md` R299). -/
def engineTurn (s : State) : Out :=
  match fetch s with
  | some w => completeWord w s
  | none => .next s

/-- What one scheduled event does. -/
def perform (e : Event) (s : State) : Out :=
  match e with
  | .access a => hostAccess a s
  | .engine => engineTurn s
  | .reset => .next (resetInput s)

/-- Gives the engine the next turn: nothing to do when the schedule is empty, since the engine then moves anyway. -/
def engineFirst (es : List Event) : List Event :=
  match es with
  | [] => []
  | e :: rest => .engine :: e :: rest

end Sys2Proof.Machine
end

