-- ==== Sys2Proof/Machine/Step.lean ====
section
/-! DEFINITION. One step of the machine: the next event of the schedule, in order (`20_memory.md` R69, `60_exceptions.md` R292). -/

namespace Sys2Proof.Machine

/-- One step. The schedule says whether the host, the engine or the reset input moves next; any order is a legal run
(`60_exceptions.md` R292). When nothing is scheduled any more the engine moves, so a pending command completes after finitely many
host accesses (`20_memory.md` R70). -/
def step (s : State) : Host.Outcome State Fault Refusal :=
  match s.schedule with
  | [] => engineTurn s
  | e :: rest => perform e { s with schedule := rest }

/-- `s` with the command word `w` accepted (`44_command_control.md` R260) and the engine's turn next, so that the next step completes
exactly that command. A command word is written by the host and not fetched from a memory: log entry 1. -/
def State.withFetchWord (s : State) (nbits w : Nat) : State :=
  { accept (BitVec.ofNat 32 (w % 2 ^ nbits)) s with schedule := engineFirst s.schedule }

end Sys2Proof.Machine
end

