-- ==== Sys2Proof/Machine/HostProgram.lean ====
section
/-! DEFINITION. Host programs (`30_encoding.md` R98 to R100): the statements, the pseudo-instructions, how a host carries them out
beside the engine, and the bus transactions of such a run. A host program is no state of the engine: it is a way to write a
schedule of events. -/

namespace Sys2Proof.Machine

/-- The aliases of OP0 to OP4 (`10_state.md` R22, R35). -/
abbrev Reg.x1 : Reg := .op0
abbrev Reg.y1 : Reg := .op1
abbrev Reg.x2 : Reg := .op2
abbrev Reg.y2 : Reg := .op3
abbrev Reg.k : Reg := .op4

/-- `offset(REG)`: the byte offset of a register (`10_state.md` R22). -/
def regOffset (r : Reg) : BitVec 8 :=
  match r with
  | .id => 0x00#8
  | .ctrl => 0x04#8
  | .status => 0x08#8
  | .cmd => 0x0C#8
  | .op0 => 0x10#8
  | .op1 => 0x14#8
  | .op2 => 0x18#8
  | .op3 => 0x1C#8
  | .op4 => 0x20#8
  | .res0 => 0x30#8
  | .res1 => 0x34#8
  | .res2 => 0x38#8
  | .res3 => 0x3C#8
  | .curveA => 0x40#8
  | .curveB => 0x44#8
  | .curveQ => 0x48#8
  | .genX => 0x4C#8
  | .genY => 0x50#8
  | .orderN => 0x54#8
  | .mapcap => 0x58#8

/-- `BusWrite(off, v)`: an admitted 32-bit write (`00_scope.md` R13, `20_memory.md` R63). -/
def wordWrite (off : BitVec 8) (v : Word) : Event := .access ⟨off, 32, 0b1111#4, some v⟩

/-- `BusRead(off)`: an admitted 32-bit read (`00_scope.md` R13, `20_memory.md` R63). -/
def wordRead (off : BitVec 8) : Event := .access ⟨off, 32, 0b1111#4, none⟩

/-- The operand forms of the commands, operands in the order of `30_encoding.md` R99. -/
inductive Call where
  | inv (a m : Word)
  | sqrt (n m : Word)
  | curveLoad (a b q : Word)
  | atX (x : Word)
  | isValid (p : Point)
  | neg (p : Point)
  | add (p1 p2 : Point)
  | dbl (p : Point)
  | smul (p : Point) (k : Word)
  | order (p : Point)
  | cipherLoad (g : Point)
  | keygen (priv : Word)
  | encrypt (plain pub : Point) (r : Word)
  | decrypt (c1 c2 : Point) (priv : Word)
  | mapBuild
  | encodeSymbol (s : Word)
  | decodePoint (p : Point)
  deriving DecidableEq, Repr

/-- The command of an operand form. -/
def Call.instr (c : Call) : Instr :=
  match c with
  | .inv _ _ => .inv
  | .sqrt _ _ => .sqrt
  | .curveLoad _ _ _ => .curveLoad
  | .atX _ => .atX
  | .isValid _ => .isValid
  | .neg _ => .neg
  | .add _ _ => .add
  | .dbl _ => .dbl
  | .smul _ _ => .smul
  | .order _ => .order
  | .cipherLoad _ => .cipherLoad
  | .keygen _ => .keygen
  | .encrypt _ _ _ => .encrypt
  | .decrypt _ _ _ => .decrypt
  | .mapBuild => .mapBuild
  | .encodeSymbol _ => .encodeSymbol
  | .decodePoint _ => .decodePoint

/-- The operand writes of an operand form, in ascending slot order (`30_encoding.md` R95, R99). -/
def Call.writes (c : Call) : List (Reg × Word) :=
  match c with
  | .inv a m => [(.op0, a), (.op1, m)]
  | .sqrt n m => [(.op0, n), (.op1, m)]
  | .curveLoad a b q => [(.op0, a), (.op1, b), (.op2, q)]
  | .atX x => [(.op0, x)]
  | .isValid p | .neg p | .dbl p | .order p | .cipherLoad p | .decodePoint p => [(.op0, p.x), (.op1, p.y)]
  | .add p1 p2 => [(.op0, p1.x), (.op1, p1.y), (.op2, p2.x), (.op3, p2.y)]
  | .smul p k => [(.op0, p.x), (.op1, p.y), (.op4, k)]
  | .keygen priv => [(.op4, priv)]
  | .encrypt p1 p2 k | .decrypt p1 p2 k => [(.op0, p1.x), (.op1, p1.y), (.op2, p2.x), (.op3, p2.y), (.op4, k)]
  | .mapBuild => []
  | .encodeSymbol s => [(.op0, s)]

/-- A statement of a host program: the four primitive statements (`30_encoding.md` R98) and the pseudo-instructions (R99). -/
inductive Statement where
  /-- `wr REG, v` -/
  | wr (r : Reg) (v : Word)
  /-- `rd REG` -/
  | rd (r : Reg)
  /-- `MNEMONIC`: issue the command. -/
  | issue (i : Instr)
  /-- `.word w`: issue a raw command word. -/
  | rawWord (w : Word)
  /-- `wait` -/
  | wait
  /-- `ack`: clear DONE. -/
  | ack
  /-- `clrovr`: clear OVR. -/
  | clrovr
  /-- `MNEMONIC a0, a1, ...` -/
  | call (c : Call)
  deriving DecidableEq, Repr

/-- What the host does at its port: a write, a read, or the read loop of `wait` (`30_encoding.md` R98, R99). -/
inductive HostOp where
  | write (off : BitVec 8) (v : Word)
  | read (off : BitVec 8)
  | wait
  deriving DecidableEq, Repr

/-- The expansion of a statement (`30_encoding.md` R98, R99). -/
def Statement.ops (st : Statement) : List HostOp :=
  match st with
  | .wr r v => [.write (regOffset r) v]
  | .rd r => [.read (regOffset r)]
  | .issue i => [.write (regOffset .cmd) (encode i)]
  | .rawWord w => [.write (regOffset .cmd) w]
  | .wait => [.wait]
  | .ack => [.write (regOffset .status) 0x00000002#32]
  | .clrovr => [.write (regOffset .status) 0x00000004#32]
  | .call c => c.writes.map (fun rv => .write (regOffset rv.1) rv.2) ++ [.write (regOffset .cmd) (encode c.instr), .wait]

/-- The direction of a bus transaction (`30_encoding.md` R100). -/
inductive Dir where
  | w | r
  deriving DecidableEq, Repr

/-- A bus transaction `(dir, offset, data)` (`30_encoding.md` R100); the data of a read is the value the host got. -/
structure Transaction where
  dir : Dir
  offset : BitVec 8
  data : Word
  deriving DecidableEq, Repr

/-- The access that carries out an operation once; `wait` reads STATUS (`30_encoding.md` R99). -/
def HostOp.event (o : HostOp) : Event :=
  match o with
  | .write off v => wordWrite off v
  | .read off => wordRead off
  | .wait => wordRead (regOffset .status)

/-- The transaction an operation makes on the state it finds (`30_encoding.md` R100). -/
def HostOp.transaction (o : HostOp) (s : State) : Transaction :=
  match o with
  | .write off v => ⟨.w, off, v⟩
  | .read off => ⟨.r, off, busRead off s⟩
  | .wait => ⟨.r, regOffset .status, busRead (regOffset .status) s⟩

/-- What the host does next after the operation `o`, which found the state `s`: the loop of `wait` goes round again while bit 0
(BUSY) of the value read is 1 (`30_encoding.md` R99, R100). -/
def HostOp.rest (o : HostOp) (s : State) (os : List HostOp) : List HostOp :=
  match o with
  | .wait => if (busRead (regOffset .status) s).getLsbD 0 then .wait :: os else os
  | .write _ _ | .read _ => os

/-- Who moves next: the host with its next access, the engine, or the reset input. A list of turns is one interleaving of a host
program with completions (`20_memory.md` R69), chosen freely: a completion may fall between any two accesses, within a `wait` or
outside one (R70). That the interleaving is such a list, and that the host goes on with its program after a reset, are the model's
choices, DESIGN CHOICE (log entry 13). -/
inductive Turn where
  | host
  | engine
  | reset
  deriving DecidableEq, Repr

/-- A host program under way beside the engine: what the host has still to do, the engine, and the transactions made so far. -/
structure HostRun where
  todo : List HostOp
  engine : State
  made : List Transaction
  deriving DecidableEq, Repr

/-- A host program at its start, on the engine `s`. -/
def HostRun.start (p : List Statement) (s : State) : HostRun := ⟨p.flatMap Statement.ops, s, []⟩

/-- The event of a turn; none where the host has nothing left to do. -/
def HostRun.event (t : Turn) (r : HostRun) : Option Event :=
  match t with
  | .host => r.todo.head?.map HostOp.event
  | .engine => some .engine
  | .reset => some .reset

/-- The host's own side of a turn. -/
def HostRun.hostSide (t : Turn) (r : HostRun) : HostRun :=
  match t, r.todo with
  | .host, o :: os => { r with todo := o.rest r.engine os, made := r.made ++ [o.transaction r.engine] }
  | .host, [] | .engine, _ | .reset, _ => r

/-- One turn. -/
def HostRun.turn (t : Turn) (r : HostRun) : Host.Outcome HostRun Fault Refusal :=
  match r.event t with
  | none => .next r
  | some e =>
    match perform e r.engine with
    | .next s => .next { r.hostSide t with engine := s }
    | .fault x => .fault x
    | .refused x => .refused x

/-- The turns of an interleaving, in order. -/
def HostRun.turns (ts : List Turn) (r : HostRun) : Host.Outcome HostRun Fault Refusal :=
  match ts with
  | [] => .next r
  | t :: ts =>
    match r.turn t with
    | .next r' => r'.turns ts
    | .fault x => .fault x
    | .refused x => .refused x

/-- The events of an interleaving: the schedule on which `step` does the same (Laws/HostProgram.lean). -/
def HostRun.events (ts : List Turn) (r : HostRun) : List Event :=
  match ts with
  | [] => []
  | t :: ts =>
    match r.turn t with
    | .next r' => (r.event t).toList ++ r'.events ts
    | .fault _ | .refused _ => (r.event t).toList

/-- The schedule of a host program on the engine `s` under one interleaving. -/
def programEvents (p : List Statement) (ts : List Turn) (s : State) : List Event := (HostRun.start p s).events ts

/-- The end of a run of a host program (`44_command_control.md` R268): the host has made its last access and nothing is pending. The
run ends at the first such point; a reset after it is no part of it, which is the model's choice (log entry 10). -/
def HostRun.ended (r : HostRun) : Bool := r.todo.isEmpty && !r.engine.busy

/-- Is this an access of the host? -/
def Event.isAccess (e : Event) : Bool :=
  match e with
  | .access _ => true
  | .engine | .reset => false

/-- The same of a schedule (`44_command_control.md` R268): no access is left and nothing is pending. A reset or an idle turn still
scheduled then is no part of the run: R268 does not speak of it, and this is the model's choice, DESIGN CHOICE (log entry 10). -/
def State.runEnded (s : State) : Bool := s.schedule.all (fun e => !e.isAccess) && !s.busy

end Sys2Proof.Machine
end

