-- ==== Sys2Proof/Safety.lean ====
section
/-! DEFINITION. The vocabulary of the statements: the invariants of `10_state.md` R44, what a sound curve is (`41_curve_group.md`
R141), the tables of `30_encoding.md` R95 and `60_exceptions.md` R281 as data, and the frames. -/

namespace Sys2Proof.Machine

/-! ### Host accesses -/

/-- The schedule asks for no access that the engine refuses. -/
def admittedSchedule (es : List Event) : Prop := ∀ a : Access, Event.access a ∈ es → a.admitted = true

/-! ### The command tables -/

/-- The result register RES`k` (`10_state.md` R36). -/
def State.res (s : State) (k : Fin 4) : Word :=
  match k with
  | 0 => s.res0
  | 1 => s.res1
  | 2 => s.res2
  | 3 => s.res3

/-- The columns RES0 to RES3 of `30_encoding.md` R95: the result registers a command writes on success. -/
def resultSlots (i : Instr) : List (Fin 4) :=
  match i with
  | .nop | .curveLoad | .mapBuild => []
  | .inv | .isValid | .order | .cipherLoad | .decodePoint => [0]
  | .sqrt | .neg | .add | .dbl | .smul | .keygen | .decrypt | .encodeSymbol => [0, 1]
  | .atX | .encrypt => [0, 1, 2, 3]

/-- The column "needs" of `30_encoding.md` R95: the STATUS flag the command needs is 1. -/
def ready (i : Instr) (s : State) : Bool :=
  match i with
  | .nop | .inv | .sqrt | .curveLoad => true
  | .atX | .isValid | .neg | .add | .dbl | .smul | .order | .cipherLoad => s.curveValid
  | .keygen | .encrypt | .decrypt | .mapBuild => s.cipherValid
  | .encodeSymbol | .decodePoint => s.mapValid

/-- The column "raised by" of `60_exceptions.md` R281, by command: the error codes a legal command can report. -/
def raises (i : Instr) : List ErrCode :=
  match i with
  | .nop => []
  | .inv => [.noInverse]
  | .sqrt => [.operandRange, .noSquareRoot]
  | .curveLoad => [.invalidCurveParameters]
  | .atX => [.notReady, .operandRange, .noPointAtX]
  | .isValid | .keygen => [.notReady]
  | .neg | .add | .dbl | .smul => [.notReady, .operandRange]
  | .order => [.notReady, .invalidPoint, .orderNotFound]
  | .cipherLoad => [.notReady, .invalidGenerator, .orderNotFound]
  | .encrypt | .decrypt => [.notReady, .invalidPoint]
  | .mapBuild => [.notReady, .mapCapacity]
  | .encodeSymbol => [.notReady, .symbolRange]
  | .decodePoint => [.notReady, .unknownPoint]

/-! ### Frames -/

/-- What no completion of a command touches: CTRL, OVR, CMD, OP0 to OP4, `snap`, MAPCAP, and the model's own fields
(`44_command_control.md` R263, R264). -/
structure CompletionFrame (s t : State) : Prop where
  ie : t.ie = s.ie
  ovr : t.ovr = s.ovr
  cmd : t.cmd = s.cmd
  ops : t.ops = s.ops
  snap : t.snap = s.snap
  mapcap : t.mapcap = s.mapcap
  schedule : t.schedule = s.schedule
  hostReads : t.hostReads = s.hostReads
  resets : t.resets = s.resets

/-- The curve registers, the cipher context and the valid flags are as before (`10_state.md` R30 to R32, R37 to R39). -/
structure ConfigFrame (s t : State) : Prop where
  curve : t.curve = s.curve
  gen : t.gen = s.gen
  orderN : t.orderN = s.orderN
  curveValid : t.curveValid = s.curveValid
  cipherValid : t.cipherValid = s.cipherValid
  mapValid : t.mapValid = s.mapValid

/-- RES0 to RES3 are as before. -/
def ResultFrame (s t : State) : Prop := ∀ k : Fin 4, t.res k = s.res k

/-- Every entry of the MAP RAM reads as before. -/
def MapFrame (s t : State) : Prop := ∀ j : Nat, mapRead t j = mapRead s j

/-! ### Invariants -/

/-- The conditions that CURVE_LOAD checks (`41_curve_group.md` R141), in plain arithmetic. -/
structure CurveSound (c : Curve) : Prop where
  q_gt_two : 2 < c.q.toNat
  q_prime : Nat.Prime c.q.toNat
  a_pos : 0 < c.a.toNat
  a_lt : c.a.toNat < c.q.toNat
  b_pos : 0 < c.b.toNat
  b_lt : c.b.toNat < c.q.toNat
  nonsingular : (4 * c.a.toNat ^ 3 + 27 * c.b.toNat ^ 2) % c.q.toNat ≠ 0

/-- `g` generates a subgroup of order `n` on `c`: the cipher clause of `10_state.md` R44. -/
structure CipherSound (c : Curve) (g : Point) (n : Nat) : Prop where
  valid_gen : valid c g = true
  gen_ne : g ≠ ident
  n_pos : 1 ≤ n
  n_le : n ≤ c.q.toNat
  order_mul : ecSmul c g n = ident
  order_least : ∀ i, 0 < i → i < n → ecSmul c g i ≠ ident

/-- The invariants of `10_state.md` R44, with two of the model's representation: MAP_DEPTH is legal (`00_scope.md` R6) and the MAP
RAM is in canonical form. -/
structure EngineInv (s : State) : Prop where
  cipher_needs_curve : s.cipherValid = true → s.curveValid = true
  map_needs_cipher : s.mapValid = true → s.cipherValid = true
  curve : s.curveValid = true → CurveSound s.curve
  cipher : s.cipherValid = true → CipherSound s.curve s.gen s.orderN.toNat
  map_fits : s.mapValid = true → s.orderN.toNat ≤ s.mapDepth
  map_built : s.mapValid = true → ∀ i < s.orderN.toNat, Memory.read s.mapRam i = some (ecSmul s.curve s.gen i)
  busy_clean : s.busy = true → s.done = false ∧ s.errCode = .noError
  depth : Config.mapDepthMin ≤ s.mapDepth
  ram : Memory.wf s.mapRam = true

end Sys2Proof.Machine
end

