-- ==== Sys2Proof/Certificates/Slice0/Obligations.lean ====
section
/-! DEFINITION. The statements for the provers, each with the rule of the spec it formalises. A command's statement spells out the
whole next state, so that it says the result, that the command completes, and what it leaves unchanged. -/

open Sys2Proof Sys2Proof.Machine

/-! ### Encoding and the step -/

/-- `30_encoding.md` R92: every opcode from 0x00 to 0x11 is assigned as the map says, and 0x12 to 0xFF are illegal. -/
def Obligations.OpcodeMapDecodes : Prop :=
  decode 0x00000000#32 = .ok .nop ∧ decode 0x00000001#32 = .ok .inv ∧ decode 0x00000002#32 = .ok .sqrt
    ∧ decode 0x00000003#32 = .ok .curveLoad ∧ decode 0x00000004#32 = .ok .atX ∧ decode 0x00000005#32 = .ok .isValid
    ∧ decode 0x00000006#32 = .ok .neg ∧ decode 0x00000007#32 = .ok .add ∧ decode 0x00000008#32 = .ok .dbl
    ∧ decode 0x00000009#32 = .ok .smul ∧ decode 0x0000000A#32 = .ok .order ∧ decode 0x0000000B#32 = .ok .cipherLoad
    ∧ decode 0x0000000C#32 = .ok .keygen ∧ decode 0x0000000D#32 = .ok .encrypt ∧ decode 0x0000000E#32 = .ok .decrypt
    ∧ decode 0x0000000F#32 = .ok .mapBuild ∧ decode 0x00000010#32 = .ok .encodeSymbol
    ∧ decode 0x00000011#32 = .ok .decodePoint
    ∧ ∀ w : Word, 0x12 ≤ w.toNat → w.toNat ≤ 0xFF → decode w = .error .opcodeUnassigned

/-- Decoding and encoding agree in both directions, for every word and every command (`30_encoding.md` R90 to R92). -/
def Obligations.DecodeInvertsEncode : Prop :=
  ∀ (w : Word) (i : Instr), i.wellFormed = true → (decode w = .ok i ↔ w = encode i)

/-- A word is a command exactly when bits [31:8] are 0 and the opcode is at most 0x11 (`30_encoding.md` R91, first two sentences). -/
def Obligations.LegalWordsAreExactly : Prop :=
  ∀ w : Word, (∃ i, decode w = .ok i) ↔ (w.toNat / 256 = 0 ∧ w.toNat % 256 ≤ 0x11)

/-- When the pending word decodes to a command and the engine moves, the step is `exec` of that command (`44_command_control.md`
R263, R266). That the engine moves where its turn is scheduled is R263's completion; that it moves where nothing is scheduled is the
model's choice (log entry 8). -/
def Obligations.StepRunsDecodedCommand : Prop :=
  ∀ (s : State) (w : Word) (i : Instr), s.pending = some w → decode w = .ok i →
    (s.schedule = [] → step s = exec i s)
      ∧ ∀ rest, s.schedule = .engine :: rest → step s = exec i { s with schedule := rest }

/-- The word placed by `withFetchWord` is the command the very next step completes (log entry 1). -/
def Obligations.FetchedWordRunsNext : Prop :=
  ∀ (s : State) (i : Instr), step (s.withFetchWord 32 (encode i).toNat) = exec i (accept (encode i) s)

/-- `30_encoding.md` R96: an illegal word (reserved bits set, or an opcode from 0x12) is accepted, completes with ILLEGAL_COMMAND
(0x10), and changes nothing but STATUS and CMD (and the hidden `snap` that acceptance copies). -/
def Obligations.IllegalWordCompletesWithError : Prop :=
  ErrCode.code .illegalCommand = 0x10#8 ∧
    ∀ (s : State) (w : Word) (rest : List Event), s.pending = none →
      (w.toNat / 256 ≠ 0 ∨ 0x12 ≤ w.toNat % 256) →
      Host.Core.run Sys2Proof.core 2 { s with schedule := wordWrite 0x0C#8 w :: .engine :: rest } =
        .next { s with
          schedule := rest, cmd := w, snap := s.ops, pending := none, done := true, errCode := .illegalCommand }

/-! ### Host accesses, the command lifecycle, reset, the interrupt -/

/-- `44_command_control.md` R260: a CMD write while idle is accepted, whatever the word; `irq` drops. -/
def Obligations.IdleCommandWriteIsAccepted : Prop :=
  ∀ (s : State) (w : Word) (rest : List Event), s.pending = none → s.schedule = wordWrite 0x0C#8 w :: rest →
    ∃ t, step s = .next t ∧
      t = { s with schedule := rest, cmd := w, snap := s.ops, pending := some w, done := false, errCode := .noError }
      ∧ t.busy = true ∧ t.err = false ∧ t.irq = false

/-- `44_command_control.md` R262: a CMD write while busy is ignored and sets OVR; nothing else changes. -/
def Obligations.BusyCommandWriteSetsOverrun : Prop :=
  ∀ (s : State) (v w : Word) (rest : List Event), s.pending = some v → s.schedule = wordWrite 0x0C#8 w :: rest →
    step s = .next { s with schedule := rest, ovr := true }

/-- `10_state.md` R35: a write to OP0 to OP4, at any time, stores the value there and changes nothing else, `snap` included; a read
returns the value last written. -/
def Obligations.OperandWriteStoresOnly : Prop :=
  ∀ (s : State) (v : Word) (rest : List Event),
    (s.schedule = wordWrite 0x10#8 v :: rest →
      step s = .next { s with schedule := rest, ops := { s.ops with op0 := v } })
    ∧ (s.schedule = wordWrite 0x14#8 v :: rest →
      step s = .next { s with schedule := rest, ops := { s.ops with op1 := v } })
    ∧ (s.schedule = wordWrite 0x18#8 v :: rest →
      step s = .next { s with schedule := rest, ops := { s.ops with op2 := v } })
    ∧ (s.schedule = wordWrite 0x1C#8 v :: rest →
      step s = .next { s with schedule := rest, ops := { s.ops with op3 := v } })
    ∧ (s.schedule = wordWrite 0x20#8 v :: rest →
      step s = .next { s with schedule := rest, ops := { s.ops with op4 := v } })
    ∧ busRead 0x10#8 s = s.ops.op0 ∧ busRead 0x14#8 s = s.ops.op1 ∧ busRead 0x18#8 s = s.ops.op2
    ∧ busRead 0x1C#8 s = s.ops.op3 ∧ busRead 0x20#8 s = s.ops.op4

/-- `44_command_control.md` R261: the running command uses `snap`, the values of OP0 to OP4 at acceptance. A host write to OPi changes
OPi and not `snap`; whatever OP0 to OP4 hold when the command completes, its outcome is the same but for OP0 to OP4 themselves; and
the next command accepted takes their new values as its operands. -/
def Obligations.RunningCommandIgnoresOperandWrites : Prop :=
  (∀ (i : Instr) (s t : State) (o : Operands), exec i s = .next t → exec i { s with ops := o } = .next { t with ops := o })
    ∧ (∀ (s : State) (w : Word), (accept w s).snap = s.ops)
    ∧ ∀ (s : State) (off : BitVec 8) (v : Word), off ∈ [0x10#8, 0x14#8, 0x18#8, 0x1C#8, 0x20#8] →
        (busWrite off v s).snap = s.snap ∧ (busWrite off v s).pending = s.pending ∧ busRead off (busWrite off v s) = v

/-- `10_state.md` R25: the layout of a STATUS read, and a STATUS write, which clears DONE (bit 1) and OVR (bit 2) where a 1 is
written and ignores every other bit. -/
def Obligations.StatusRegisterLayoutAndClear : Prop :=
  (∀ s : State,
    (busRead 0x08#8 s).getLsbD 0 = s.pending.isSome ∧ (busRead 0x08#8 s).getLsbD 1 = s.done
      ∧ (busRead 0x08#8 s).getLsbD 2 = s.ovr ∧ (busRead 0x08#8 s).getLsbD 3 = (s.errCode != .noError)
      ∧ (busRead 0x08#8 s).getLsbD 4 = s.curveValid ∧ (busRead 0x08#8 s).getLsbD 5 = s.cipherValid
      ∧ (busRead 0x08#8 s).getLsbD 6 = s.mapValid ∧ (busRead 0x08#8 s).getLsbD 7 = false
      ∧ (busRead 0x08#8 s).extractLsb' 8 8 = s.errCode.code ∧ (busRead 0x08#8 s).extractLsb' 16 16 = 0#16)
    ∧ ∀ (s : State) (v : Word) (rest : List Event), s.schedule = wordWrite 0x08#8 v :: rest →
        step s = .next { s with
          schedule := rest
          done := if v.getLsbD 1 then false else s.done
          ovr := if v.getLsbD 2 then false else s.ovr }

/-- `10_state.md` R24: CTRL holds IE in bit 0, 0 after reset, and `irq` is IE AND DONE; its other bits read 0 and ignore writes; it may
be written in any state, busy or not, and the write takes effect at once. -/
def Obligations.ControlRegisterHoldsInterruptEnable : Prop :=
  State.reset.ie = false
    ∧ (∀ s : State, (busRead 0x04#8 s = if s.ie then 1#32 else 0#32) ∧ s.irq = (s.ie && s.done))
    ∧ ∀ (s : State) (v : Word) (rest : List Event), s.schedule = wordWrite 0x04#8 v :: rest →
        step s = .next { s with schedule := rest, ie := v.getLsbD 0 }

/-- `10_state.md` R43: a write to a read-only register or to a reserved offset (anywhere but CTRL, STATUS, CMD and OP0 to OP4, column
access of R22) has no effect and is no error, and a reserved offset reads 0; the reserved bits of CTRL and STATUS read 0, and what a
write carries in them has no effect. -/
def Obligations.ReadOnlyAndReservedWritesIgnored : Prop :=
  (∀ (s : State) (off : BitVec 8) (v : Word) (rest : List Event), off.toNat % 4 = 0 →
    off.toNat ∉ [0x04, 0x08, 0x0C, 0x10, 0x14, 0x18, 0x1C, 0x20] → s.schedule = wordWrite off v :: rest →
    step s = .next { s with schedule := rest })
  ∧ (∀ (s : State) (off : BitVec 8), (0x24 ≤ off.toNat ∧ off.toNat ≤ 0x2C) ∨ 0x5C ≤ off.toNat → busRead off s = 0#32)
  ∧ (∀ (s : State) (k : Nat), (1 ≤ k → (busRead 0x04#8 s).getLsbD k = false)
      ∧ (k = 7 ∨ 16 ≤ k → (busRead 0x08#8 s).getLsbD k = false))
  ∧ ∀ (s : State) (v : Word), busWrite 0x04#8 v s = busWrite 0x04#8 (v &&& 0x00000001#32) s
      ∧ busWrite 0x08#8 v s = busWrite 0x08#8 (v &&& 0x00000006#32) s

/-- The register map (`10_state.md` R22, columns offset, name and holds): what a read of each offset gives, reserved offsets included.
The fields of STATUS stand in `StatusRegisterLayoutAndClear`. An admitted read gives the host that value and changes nothing in the
engine (`20_memory.md` R66). -/
def Obligations.RegisterReadsFollowTheMap : Prop :=
  ∀ s : State,
    (busRead 0x00#8 s = 0x45430001#32 ∧ busRead 0x04#8 s = (if s.ie then 1#32 else 0#32) ∧ busRead 0x08#8 s = s.statusWord
      ∧ busRead 0x10#8 s = s.ops.op0 ∧ busRead 0x14#8 s = s.ops.op1 ∧ busRead 0x18#8 s = s.ops.op2
      ∧ busRead 0x1C#8 s = s.ops.op3 ∧ busRead 0x20#8 s = s.ops.op4
      ∧ busRead 0x0C#8 s = s.cmd ∧ busRead 0x30#8 s = s.res0 ∧ busRead 0x34#8 s = s.res1
      ∧ busRead 0x38#8 s = s.res2 ∧ busRead 0x3C#8 s = s.res3 ∧ busRead 0x40#8 s = s.curve.a
      ∧ busRead 0x44#8 s = s.curve.b ∧ busRead 0x48#8 s = s.curve.q ∧ busRead 0x4C#8 s = s.gen.x
      ∧ busRead 0x50#8 s = s.gen.y ∧ busRead 0x54#8 s = s.orderN ∧ (busRead 0x58#8 s).toNat = s.mapDepth)
    ∧ (∀ off : BitVec 8, (0x24 ≤ off.toNat ∧ off.toNat ≤ 0x2C) ∨ 0x5C ≤ off.toNat → busRead off s = 0#32)
    ∧ ∀ (off : BitVec 8) (rest : List Event), off.toNat % 4 = 0 → s.schedule = wordRead off :: rest →
        step s = .next { s with schedule := rest, hostReads := (off, busRead off s) :: s.hostReads }

/-- `20_memory.md` R63: an access is admitted only at an offset that is a multiple of 4, 32 bits wide and with all four byte
enables; any other is refused. -/
def Obligations.InadmissibleAccessRefused : Prop :=
  ∀ (s : State) (a : Access) (rest : List Event), s.schedule = .access a :: rest →
    ((a.offset.toNat % 4 ≠ 0 ∨ a.width ≠ 32 ∨ a.lanes ≠ 0b1111#4) → step s = .refused .busError)
      ∧ (a.offset.toNat % 4 = 0 → a.width = 32 → a.lanes = 0b1111#4 → ∃ t, step s = .next t)

/-- `70_reset_and_hazards.md` R320 and R321: the reset input, from every state, also with a command pending, puts every register
at its reset value and abandons the command. A host access or a completion that comes just before leaves no trace in the engine: the
state after the reset is the same with it and without it, but for what the host has read. Three things in this are the model's
choice and no rule of the spec: that a reset and an event that coincide with it are performed as the reset alone (log entry 9), and,
since the last clause equates whole states, that `snap` has one named value after reset (log entry 2) and that the MAP RAM and the
counter of resets are the same either way (log entry 4), which R320 leaves unspecified. The register clauses rest on none of them. -/
def Obligations.ResetInputPutsResetValues : Prop :=
  (∀ (s : State) (rest : List Event), s.schedule = .reset :: rest →
    ∃ t, step s = .next t ∧ t.pending = none ∧ t.irq = false ∧ t.ie = false ∧ t.done = false ∧ t.ovr = false
      ∧ t.errCode = .noError ∧ t.curveValid = false ∧ t.cipherValid = false ∧ t.mapValid = false
      ∧ (∀ off : BitVec 8, busRead off t =
          if off = 0x00#8 then 0x45430001#32 else if off = 0x58#8 then busRead 0x58#8 s else 0#32)
      ∧ ∀ off : BitVec 8, busRead off { State.reset with mapcap := s.mapcap } = busRead off t)
  ∧ ∀ (s t : State) (e : Event), e ≠ .reset → perform e s = .next t →
      resetInput t = { resetInput s with hostReads := t.hostReads }

/-- `60_exceptions.md` R290: `irq = CTRL.IE AND STATUS.DONE`. It is asserted when a command completes while IE = 1, whatever the
code, or when IE is set while DONE = 1; it is deasserted by a write of 1 to DONE, an acceptance, a write of 0 to IE, or reset. -/
def Obligations.InterruptIsLevelOfEnableAndDone : Prop :=
  (∀ s : State, s.irq = (s.ie && s.done))
    ∧ (∀ (i : Instr) (s t : State), exec i s = .next t → t.irq = s.ie)
    ∧ (∀ (s t : State) (w : Word) (x : IllegalWord), decode w = .error x → completeWord w s = .next t → t.irq = s.ie)
    ∧ (∀ (s : State) (v : Word), v.getLsbD 0 = true → (busWrite 0x04#8 v s).irq = s.done)
    ∧ (∀ (s : State) (v : Word), v.getLsbD 0 = false → (busWrite 0x04#8 v s).irq = false)
    ∧ (∀ (s : State) (v : Word), v.getLsbD 1 = true → (busWrite 0x08#8 v s).irq = false)
    ∧ (∀ (s : State) (w : Word), s.pending = none → (busWrite 0x0C#8 w s).irq = false)
    ∧ ∀ s : State, (resetInput s).irq = false

/-- ID and MAPCAP never change (`10_state.md` R23, R40): whatever a step does. -/
def Obligations.IdentityAndCapacityNeverChange : Prop :=
  ∀ s t : State, step s = .next t →
    busRead 0x00#8 t = 0x45430001#32 ∧ busRead 0x58#8 t = busRead 0x58#8 s ∧ (busRead 0x58#8 t).toNat = s.mapDepth

/-- `10_state.md` R28: OVR is set by a CMD write while busy and by nothing else, and cleared by a host write of 1 to bit 2 of STATUS or
by reset and by nothing else; acceptance and completion leave it. -/
def Obligations.OverrunIsSticky : Prop :=
  ∀ s t : State, step s = .next t →
    (s.ovr = false → t.ovr = true →
      ∃ a v rest, s.schedule = .access a :: rest ∧ a.offset = 0x0C#8 ∧ a.write = some v ∧ s.busy = true)
    ∧ (s.ovr = true → t.ovr = false →
      (∃ a v rest, s.schedule = .access a :: rest ∧ a.offset = 0x08#8 ∧ a.write = some v ∧ v.getLsbD 2 = true)
        ∨ ∃ rest, s.schedule = .reset :: rest)
    ∧ (∀ v rest, s.schedule = wordWrite 0x0C#8 v :: rest → s.busy = true → t.ovr = true)
    ∧ (∀ v rest, s.schedule = wordWrite 0x08#8 v :: rest → v.getLsbD 2 = true → t.ovr = false)
    ∧ ∀ rest, s.schedule = .reset :: rest → t.ovr = false

/-- A host access changes no result register, no configuration, no valid flag and no MAP RAM entry (`10_state.md` R34, R36 to R40:
only commands write them), and it completes no command. -/
def Obligations.HostAccessFrame : Prop :=
  ∀ (s t : State) (a : Access) (rest : List Event), s.schedule = .access a :: rest → step s = .next t →
    ResultFrame s t ∧ ConfigFrame s t ∧ MapFrame s t ∧ t.mapcap = s.mapcap ∧ t.resets = s.resets ∧ t.schedule = rest
      ∧ (s.busy = true → t.pending = s.pending ∧ t.snap = s.snap ∧ t.cmd = s.cmd)

/-- `60_exceptions.md` R292 (with `20_memory.md` R69): a CMD write that comes just before the completion of the running command sets
OVR and is lost, one that comes just after is accepted; both orders are runs of the model. Either way the completion gives what it
gives alone, and the accepted write keeps its results, its configuration and its MAP RAM. -/
def Obligations.BothOrdersOfWriteAndCompletion : Prop :=
  ∀ (s t : State) (w w2 : Word) (rest : List Event), s.pending = some w →
    completeWord w { s with schedule := rest } = .next t →
    (∃ u, Host.Core.run Sys2Proof.core 2 { s with schedule := wordWrite 0x0C#8 w2 :: .engine :: rest } = .next u
        ∧ u = { t with ovr := true })
      ∧ ∃ u, Host.Core.run Sys2Proof.core 2 { s with schedule := .engine :: wordWrite 0x0C#8 w2 :: rest } = .next u
        ∧ u = accept w2 t ∧ u.ovr = s.ovr ∧ u.snap = s.ops

/-- `20_memory.md` R70: an accepted command is no longer pending after finitely many events, whatever admitted accesses and resets
come first; the engine never refuses to complete it. Where no reset is scheduled, it is completed: after some of the scheduled
events the same word is still pending with the same operands, and the next step is its completion. That the engine moves once
nothing is scheduled, which gives the bound, is the model's choice (log entry 8). -/
def Obligations.PendingCommandCompletes : Prop :=
  ∀ s : State, EngineInv s → s.busy = true → admittedSchedule s.schedule →
    (∃ n t, n ≤ s.schedule.length + 1 ∧ Host.Core.run Sys2Proof.core n s = .next t ∧ t.busy = false)
    ∧ ∀ w, s.pending = some w → Event.reset ∉ s.schedule →
        ∃ n u t, n ≤ s.schedule.length ∧ Host.Core.run Sys2Proof.core n s = .next u ∧ u.pending = some w ∧ u.snap = s.snap
          ∧ completeWord w { u with schedule := u.schedule.tail } = .next t
          ∧ Host.Core.run Sys2Proof.core (n + 1) s = .next t ∧ t.busy = false ∧ t.done = true

/-- `30_encoding.md` R99, R100: an operand form writes its operands to the OP slots of R95, issues the command and waits. From an idle
engine it runs the command on those operands, under every interleaving without a reset; its transactions are the writes, the CMD
write, some reads of STATUS with BUSY = 1, and one with the STATUS of the completion. However many reads fall before the completion,
there is such a run. `wait` reads on while the command is pending and makes one read when nothing is. That an interleaving is a
list of turns is the model's choice (log entry 13). -/
def Obligations.OperandFormRunsTheCommand : Prop :=
  (∀ (s a t : State) (c : Call), s.pending = none →
    a = accept (encode c.instr) (c.writes.foldl (fun u rv => busWrite (regOffset rv.1) rv.2 u) s) → exec c.instr a = .next t →
    (∀ (ts : List Turn) (r : HostRun), Turn.reset ∉ ts → (HostRun.start [.call c] s).turns ts = .next r → r.todo = [] →
      r.engine = { t with hostReads := r.engine.hostReads } ∧ r.engine.hostReads.head? = some (0x08#8, busRead 0x08#8 t)
      ∧ ∃ k, r.made = c.writes.map (fun rv => ⟨.w, regOffset rv.1, rv.2⟩) ++ ⟨.w, 0x0C#8, encode c.instr⟩
          :: List.replicate k ⟨.r, 0x08#8, busRead 0x08#8 a⟩ ++ [⟨.r, 0x08#8, busRead 0x08#8 t⟩])
    ∧ ∀ k : Nat, ∃ r,
        (HostRun.start [.call c] s).turns (List.replicate (c.writes.length + 1 + k) .host ++ [.engine, .host]) = .next r
          ∧ r.ended = true)
  ∧ ∀ (s : State) (k : Nat),
      (s.busy = true → (HostRun.start [.wait] s).turns (List.replicate k .host) =
        .next ⟨[.wait], { s with hostReads := List.replicate k (0x08#8, busRead 0x08#8 s) ++ s.hostReads },
          List.replicate k ⟨.r, 0x08#8, busRead 0x08#8 s⟩⟩)
      ∧ (s.busy = false → (HostRun.start [.wait] s).turns (List.replicate (k + 1) .host) =
        .next ⟨[], { s with hostReads := (0x08#8, busRead 0x08#8 s) :: s.hostReads }, [⟨.r, 0x08#8, busRead 0x08#8 s⟩]⟩)

/-! ### The commands: modular arithmetic and control -/

/-- `44_command_control.md` R265: NOP, the word 0 and no other, completes with ERR_CODE 0x00 and DONE = 1 and changes nothing else,
whatever the flags. -/
def Obligations.NopCompletes : Prop :=
  encode .nop = 0x00000000#32 ∧ (∀ w : Word, decode w = .ok .nop → w = 0x00000000#32) ∧
    ∀ s : State, exec .nop s = .next { s with errCode := .noError, done := true, pending := none }

/-- `40_modular_arith.md` R121 (with the search of R120): INV gives the least `t < m` with `a·t ≡ 1 (mod m)`, or NO_INVERSE. -/
def Obligations.InvGivesLeastInverse : Prop :=
  encode .inv = 0x00000001#32 ∧
    ∀ s : State,
      (∀ t, t < s.snap.op1.toNat → s.snap.op0.toNat * t % s.snap.op1.toNat = 1 →
        (∀ u, u < t → s.snap.op0.toNat * u % s.snap.op1.toNat ≠ 1) →
        exec .inv s = .next { s with res0 := BitVec.ofNat 32 t, errCode := .noError, done := true, pending := none })
      ∧ ((∀ t, t < s.snap.op1.toNat → s.snap.op0.toNat * t % s.snap.op1.toNat ≠ 1) →
        exec .inv s = .next { s with errCode := .noInverse, done := true, pending := none })

/-- `40_modular_arith.md` R125 (with the search of R124): SQRT gives the least root in `[1, m)` and `m` minus it; NO_SQUARE_ROOT
when there is none; OPERAND_RANGE when `n >= m`. -/
def Obligations.SqrtGivesLeastRoot : Prop :=
  encode .sqrt = 0x00000002#32 ∧
    ∀ s : State,
      (∀ i, s.snap.op0.toNat < s.snap.op1.toNat → 1 ≤ i → i < s.snap.op1.toNat →
        i * i % s.snap.op1.toNat = s.snap.op0.toNat →
        (∀ u, 1 ≤ u → u < i → u * u % s.snap.op1.toNat ≠ s.snap.op0.toNat) →
        exec .sqrt s = .next { s with
          res0 := BitVec.ofNat 32 i, res1 := BitVec.ofNat 32 (s.snap.op1.toNat - i)
          errCode := .noError, done := true, pending := none })
      ∧ (s.snap.op0.toNat < s.snap.op1.toNat →
        (∀ i, 1 ≤ i → i < s.snap.op1.toNat → i * i % s.snap.op1.toNat ≠ s.snap.op0.toNat) →
        exec .sqrt s = .next { s with errCode := .noSquareRoot, done := true, pending := none })
      ∧ (s.snap.op1.toNat ≤ s.snap.op0.toNat →
        exec .sqrt s = .next { s with errCode := .operandRange, done := true, pending := none })

/-! ### The commands: the curve group -/

/-- `41_curve_group.md` R141: CURVE_LOAD installs the curve exactly when all four conditions hold, clears the generator, the order and
the two other valid flags; otherwise INVALID_CURVE_PARAMETERS. -/
def Obligations.CurveLoadInstallsSoundCurves : Prop :=
  encode .curveLoad = 0x00000003#32 ∧
    ∀ s : State,
      (CurveSound ⟨s.snap.op0, s.snap.op1, s.snap.op2⟩ →
        exec .curveLoad s = .next { s with
          curve := ⟨s.snap.op0, s.snap.op1, s.snap.op2⟩, gen := ⟨0#32, 0#32⟩, orderN := 0#32
          curveValid := true, cipherValid := false, mapValid := false
          errCode := .noError, done := true, pending := none })
      ∧ (¬ CurveSound ⟨s.snap.op0, s.snap.op1, s.snap.op2⟩ →
        exec .curveLoad s = .next { s with errCode := .invalidCurveParameters, done := true, pending := none })

/-- `41_curve_group.md` R144 (with R143): AT gives the two points with that x, the smaller root first; NO_POINT_AT_X when the
right-hand side has no root in `[1, Q)`; OPERAND_RANGE when `x >= Q`. -/
def Obligations.AtGivesBothPoints : Prop :=
  encode .atX = 0x00000004#32 ∧
    ∀ s : State, s.curveValid = true →
      (∀ i, s.snap.op0.toNat < s.curve.q.toNat → 1 ≤ i → i < s.curve.q.toNat →
        i * i % s.curve.q.toNat =
          (s.snap.op0.toNat ^ 3 + s.curve.a.toNat * s.snap.op0.toNat + s.curve.b.toNat) % s.curve.q.toNat →
        (∀ u, 1 ≤ u → u < i → u * u % s.curve.q.toNat ≠
          (s.snap.op0.toNat ^ 3 + s.curve.a.toNat * s.snap.op0.toNat + s.curve.b.toNat) % s.curve.q.toNat) →
        exec .atX s = .next { s with
          res0 := s.snap.op0, res1 := BitVec.ofNat 32 i
          res2 := s.snap.op0, res3 := BitVec.ofNat 32 (s.curve.q.toNat - i)
          errCode := .noError, done := true, pending := none })
      ∧ (s.snap.op0.toNat < s.curve.q.toNat →
        (∀ i, 1 ≤ i → i < s.curve.q.toNat → i * i % s.curve.q.toNat ≠
          (s.snap.op0.toNat ^ 3 + s.curve.a.toNat * s.snap.op0.toNat + s.curve.b.toNat) % s.curve.q.toNat) →
        exec .atX s = .next { s with errCode := .noPointAtX, done := true, pending := none })
      ∧ (s.curve.q.toNat ≤ s.snap.op0.toNat →
        exec .atX s = .next { s with errCode := .operandRange, done := true, pending := none })

/-- `41_curve_group.md` R146 (with R145): IS_VALID gives 1 exactly for an in-range point that is IDENT or on the curve. -/
def Obligations.IsValidTestsTheCurveEquation : Prop :=
  encode .isValid = 0x00000005#32 ∧
    ∀ s : State, s.curveValid = true →
      ((s.snap.op0.toNat < s.curve.q.toNat ∧ s.snap.op1.toNat < s.curve.q.toNat ∧
          ((s.snap.op0 = 0#32 ∧ s.snap.op1 = 0#32) ∨ s.snap.op1.toNat ^ 2 % s.curve.q.toNat =
            (s.snap.op0.toNat ^ 3 + s.curve.a.toNat * s.snap.op0.toNat + s.curve.b.toNat) % s.curve.q.toNat)) →
        exec .isValid s = .next { s with res0 := 1#32, errCode := .noError, done := true, pending := none })
      ∧ (¬ (s.snap.op0.toNat < s.curve.q.toNat ∧ s.snap.op1.toNat < s.curve.q.toNat ∧
          ((s.snap.op0 = 0#32 ∧ s.snap.op1 = 0#32) ∨ s.snap.op1.toNat ^ 2 % s.curve.q.toNat =
            (s.snap.op0.toNat ^ 3 + s.curve.a.toNat * s.snap.op0.toNat + s.curve.b.toNat) % s.curve.q.toNat)) →
        exec .isValid s = .next { s with res0 := 0#32, errCode := .noError, done := true, pending := none })

/-- `41_curve_group.md` R148 (with R147): NEG gives `(x, −y mod Q)` for every in-range point, on the curve or not. -/
def Obligations.NegNegatesTheOrdinate : Prop :=
  encode .neg = 0x00000006#32 ∧
    ∀ s : State, s.curveValid = true →
      (s.snap.op0.toNat < s.curve.q.toNat → s.snap.op1.toNat < s.curve.q.toNat →
        exec .neg s = .next { s with
          res0 := s.snap.op0
          res1 := BitVec.ofNat 32 ((s.curve.q.toNat - s.snap.op1.toNat) % s.curve.q.toNat)
          errCode := .noError, done := true, pending := none })
      ∧ ((s.curve.q.toNat ≤ s.snap.op0.toNat ∨ s.curve.q.toNat ≤ s.snap.op1.toNat) →
        exec .neg s = .next { s with errCode := .operandRange, done := true, pending := none })

/-- `41_curve_group.md` R151: ADD gives `ec_add(P1, P2)` for all in-range points; OPERAND_RANGE when a coordinate is Q or more. -/
def Obligations.AddGivesTheSum : Prop :=
  encode .add = 0x00000007#32 ∧
    ∀ s : State, s.curveValid = true →
      (s.snap.op0.toNat < s.curve.q.toNat → s.snap.op1.toNat < s.curve.q.toNat →
        s.snap.op2.toNat < s.curve.q.toNat → s.snap.op3.toNat < s.curve.q.toNat →
        exec .add s = .next { s with
          res0 := (ecAdd s.curve ⟨s.snap.op0, s.snap.op1⟩ ⟨s.snap.op2, s.snap.op3⟩).x
          res1 := (ecAdd s.curve ⟨s.snap.op0, s.snap.op1⟩ ⟨s.snap.op2, s.snap.op3⟩).y
          errCode := .noError, done := true, pending := none })
      ∧ ((s.curve.q.toNat ≤ s.snap.op0.toNat ∨ s.curve.q.toNat ≤ s.snap.op1.toNat ∨
          s.curve.q.toNat ≤ s.snap.op2.toNat ∨ s.curve.q.toNat ≤ s.snap.op3.toNat) →
        exec .add s = .next { s with errCode := .operandRange, done := true, pending := none })

/-- `41_curve_group.md` R152: DBL gives `ec_add(P, P)`, the same as ADD with both operands equal; op[2] and op[3] are not read. -/
def Obligations.DblIsAddOfEqualOperands : Prop :=
  encode .dbl = 0x00000008#32 ∧
    ∀ s : State, s.curveValid = true →
      (s.snap.op0.toNat < s.curve.q.toNat → s.snap.op1.toNat < s.curve.q.toNat →
        exec .dbl s = .next { s with
          res0 := (ecAdd s.curve ⟨s.snap.op0, s.snap.op1⟩ ⟨s.snap.op0, s.snap.op1⟩).x
          res1 := (ecAdd s.curve ⟨s.snap.op0, s.snap.op1⟩ ⟨s.snap.op0, s.snap.op1⟩).y
          errCode := .noError, done := true, pending := none })
      ∧ ((s.curve.q.toNat ≤ s.snap.op0.toNat ∨ s.curve.q.toNat ≤ s.snap.op1.toNat) →
        exec .dbl s = .next { s with errCode := .operandRange, done := true, pending := none })
      ∧ ∀ t : State, exec .dbl s = .next t →
        exec .add { s with snap := { s.snap with op2 := s.snap.op0, op3 := s.snap.op1 } } =
          .next { t with snap := { s.snap with op2 := s.snap.op0, op3 := s.snap.op1 } }

/-- `41_curve_group.md` R149: the five cases of the group law on in-range points over a prime field of odd order, the slope taken
with ANY inverse `t` in `[0, Q)`. -/
def Obligations.AdditionFollowsTheGroupLaw : Prop :=
  ∀ (c : Curve) (p1 p2 : Point), CurveSound c → inField c p1 = true → inField c p2 = true →
    (p1 = ident → ecAdd c p1 p2 = p2)
    ∧ (p2 = ident → ecAdd c p1 p2 = p1)
    ∧ (p1 ≠ ident → p2 ≠ ident → p1.x = p2.x → (p1.y ≠ p2.y ∨ p1.y = 0#32) → ecAdd c p1 p2 = ident)
    ∧ (p1 = p2 → p1.y ≠ 0#32 → ∀ t : Nat, t < c.q.toNat → 2 * (p1.y.toNat : Int) * t % c.q.toNat = 1 →
        ∀ l : Int, l = (3 * (p1.x.toNat : Int) ^ 2 + c.a.toNat) * t % c.q.toNat →
        ((ecAdd c p1 p2).x.toNat : Int) = (l ^ 2 - p1.x.toNat - p2.x.toNat) % c.q.toNat
          ∧ ((ecAdd c p1 p2).y.toNat : Int) =
            (l * (p1.x.toNat - (ecAdd c p1 p2).x.toNat) - p1.y.toNat) % c.q.toNat)
    ∧ (p1 ≠ ident → p2 ≠ ident → p1.x ≠ p2.x →
        ∀ t : Nat, t < c.q.toNat → ((p2.x.toNat : Int) - p1.x.toNat) * t % c.q.toNat = 1 →
        ∀ l : Int, l = ((p2.y.toNat : Int) - p1.y.toNat) * t % c.q.toNat →
        ((ecAdd c p1 p2).x.toNat : Int) = (l ^ 2 - p1.x.toNat - p2.x.toNat) % c.q.toNat
          ∧ ((ecAdd c p1 p2).y.toNat : Int) =
            (l * (p1.x.toNat - (ecAdd c p1 p2).x.toNat) - p1.y.toNat) % c.q.toNat)

/-- `41_curve_group.md` R150 items 1, 2, 3 and 5: on in-range points the inverse search of a slope never fails, the cases partition
the inputs, the result is in range, and B is never read. -/
def Obligations.AdditionIsTotalAndInRange : Prop :=
  ∀ (c : Curve) (p1 p2 : Point), CurveSound c → inField c p1 = true → inField c p2 = true →
    (p1.y ≠ 0#32 → ∃ t, invSearch (mod (2 * (p1.y.toNat : Int)) c.q.toNat) c.q.toNat = some t)
    ∧ (p1.x ≠ p2.x → ∃ t, invSearch (mod ((p2.x.toNat : Int) - p1.x.toNat) c.q.toNat) c.q.toNat = some t)
    ∧ (p1.x = p2.x → ¬ (p1.y ≠ p2.y ∨ p1.y = 0#32) → p1 = p2 ∧ p1.y ≠ 0#32)
    ∧ inField c (ecAdd c p1 p2) = true
    ∧ ∀ b : Word, ecAdd { c with b := b } p1 p2 = ecAdd c p1 p2

/-- `41_curve_group.md` R150 item 4: `ec_add` is commutative on all in-range points, on the curve or not. -/
def Obligations.AdditionCommutes : Prop :=
  ∀ (c : Curve) (p1 p2 : Point), CurveSound c → inField c p1 = true → inField c p2 = true →
    ecAdd c p1 p2 = ecAdd c p2 p1

/-- `41_curve_group.md` R154: SMUL gives `ec_smul(P, k)` for every in-range point and every k; only the coordinates are checked. -/
def Obligations.SmulGivesTheMultiple : Prop :=
  encode .smul = 0x00000009#32 ∧
    ∀ s : State, s.curveValid = true →
      (s.snap.op0.toNat < s.curve.q.toNat → s.snap.op1.toNat < s.curve.q.toNat →
        exec .smul s = .next { s with
          res0 := (ecSmul s.curve ⟨s.snap.op0, s.snap.op1⟩ s.snap.op4.toNat).x
          res1 := (ecSmul s.curve ⟨s.snap.op0, s.snap.op1⟩ s.snap.op4.toNat).y
          errCode := .noError, done := true, pending := none })
      ∧ ((s.curve.q.toNat ≤ s.snap.op0.toNat ∨ s.curve.q.toNat ≤ s.snap.op1.toNat) →
        exec .smul s = .next { s with errCode := .operandRange, done := true, pending := none })

/-- `41_curve_group.md` R153: `ec_smul` is double-and-add over the binary digits of k, the lowest first, from IDENT, for every point
and every k. -/
def Obligations.ScalarMultipleIsDoubleAndAdd : Prop :=
  ∀ (c : Curve) (p : Point) (k : Nat),
    ecSmul c p k =
      ((Nat.bits k).foldl (fun rt b => (if b then ecAdd c rt.1 rt.2 else rt.1, ecAdd c rt.2 rt.2)) (ident, p)).1

/-- `41_curve_group.md` R156 (with R155): ORDER gives the least `i` in `[1, Q]` with `i·P = IDENT`; ORDER_NOT_FOUND when there is
none; INVALID_POINT when P is not valid or is IDENT. -/
def Obligations.OrderGivesTheLeastMultiple : Prop :=
  encode .order = 0x0000000A#32 ∧
    ∀ s : State, s.curveValid = true →
      (∀ i, valid s.curve ⟨s.snap.op0, s.snap.op1⟩ = true → (⟨s.snap.op0, s.snap.op1⟩ : Point) ≠ ident →
        1 ≤ i → i ≤ s.curve.q.toNat → ecSmul s.curve ⟨s.snap.op0, s.snap.op1⟩ i = ident →
        (∀ j, 1 ≤ j → j < i → ecSmul s.curve ⟨s.snap.op0, s.snap.op1⟩ j ≠ ident) →
        exec .order s = .next { s with res0 := BitVec.ofNat 32 i, errCode := .noError, done := true, pending := none })
      ∧ (valid s.curve ⟨s.snap.op0, s.snap.op1⟩ = true → (⟨s.snap.op0, s.snap.op1⟩ : Point) ≠ ident →
        (∀ j, 1 ≤ j → j ≤ s.curve.q.toNat → ecSmul s.curve ⟨s.snap.op0, s.snap.op1⟩ j ≠ ident) →
        exec .order s = .next { s with errCode := .orderNotFound, done := true, pending := none })
      ∧ ((valid s.curve ⟨s.snap.op0, s.snap.op1⟩ = false ∨ (⟨s.snap.op0, s.snap.op1⟩ : Point) = ident) →
        exec .order s = .next { s with errCode := .invalidPoint, done := true, pending := none })

/-! ### The commands: ElGamal -/

/-- `42_elgamal.md` R201: CIPHER_LOAD installs the generator and its order, sets CIPHER_VALID and clears MAP_VALID; INVALID_GENERATOR
when g is not valid or is IDENT; ORDER_NOT_FOUND when the order search fails. -/
def Obligations.CipherLoadInstallsTheGenerator : Prop :=
  encode .cipherLoad = 0x0000000B#32 ∧
    ∀ s : State, s.curveValid = true →
      (∀ n, valid s.curve ⟨s.snap.op0, s.snap.op1⟩ = true → (⟨s.snap.op0, s.snap.op1⟩ : Point) ≠ ident →
        1 ≤ n → n ≤ s.curve.q.toNat → ecSmul s.curve ⟨s.snap.op0, s.snap.op1⟩ n = ident →
        (∀ j, 1 ≤ j → j < n → ecSmul s.curve ⟨s.snap.op0, s.snap.op1⟩ j ≠ ident) →
        exec .cipherLoad s = .next { s with
          gen := ⟨s.snap.op0, s.snap.op1⟩, orderN := BitVec.ofNat 32 n, res0 := BitVec.ofNat 32 n
          cipherValid := true, mapValid := false
          errCode := .noError, done := true, pending := none })
      ∧ (valid s.curve ⟨s.snap.op0, s.snap.op1⟩ = true → (⟨s.snap.op0, s.snap.op1⟩ : Point) ≠ ident →
        (∀ j, 1 ≤ j → j ≤ s.curve.q.toNat → ecSmul s.curve ⟨s.snap.op0, s.snap.op1⟩ j ≠ ident) →
        exec .cipherLoad s = .next { s with errCode := .orderNotFound, done := true, pending := none })
      ∧ ((valid s.curve ⟨s.snap.op0, s.snap.op1⟩ = false ∨ (⟨s.snap.op0, s.snap.op1⟩ : Point) = ident) →
        exec .cipherLoad s = .next { s with errCode := .invalidGenerator, done := true, pending := none })

/-- `42_elgamal.md` R202: KEYGEN gives `ec_smul(G, priv)` for every 32-bit priv. -/
def Obligations.KeygenGivesThePublicPoint : Prop :=
  encode .keygen = 0x0000000C#32 ∧
    ∀ s : State, s.cipherValid = true →
      exec .keygen s = .next { s with
        res0 := (ecSmul s.curve s.gen s.snap.op4.toNat).x, res1 := (ecSmul s.curve s.gen s.snap.op4.toNat).y
        errCode := .noError, done := true, pending := none }

/-- `42_elgamal.md` R203: ENCRYPT gives `(r·G, plain + r·pub)` when both points are valid, else INVALID_POINT. -/
def Obligations.EncryptGivesTheCiphertext : Prop :=
  encode .encrypt = 0x0000000D#32 ∧
    ∀ s : State, s.cipherValid = true →
      (valid s.curve ⟨s.snap.op0, s.snap.op1⟩ = true → valid s.curve ⟨s.snap.op2, s.snap.op3⟩ = true →
        exec .encrypt s = .next { s with
          res0 := (ecSmul s.curve s.gen s.snap.op4.toNat).x
          res1 := (ecSmul s.curve s.gen s.snap.op4.toNat).y
          res2 := (ecAdd s.curve ⟨s.snap.op0, s.snap.op1⟩
            (ecSmul s.curve ⟨s.snap.op2, s.snap.op3⟩ s.snap.op4.toNat)).x
          res3 := (ecAdd s.curve ⟨s.snap.op0, s.snap.op1⟩
            (ecSmul s.curve ⟨s.snap.op2, s.snap.op3⟩ s.snap.op4.toNat)).y
          errCode := .noError, done := true, pending := none })
      ∧ ((valid s.curve ⟨s.snap.op0, s.snap.op1⟩ = false ∨ valid s.curve ⟨s.snap.op2, s.snap.op3⟩ = false) →
        exec .encrypt s = .next { s with errCode := .invalidPoint, done := true, pending := none })

/-- `42_elgamal.md` R204: DECRYPT gives `c2 + (−(priv·c1))` when both points are valid, else INVALID_POINT. -/
def Obligations.DecryptGivesThePlainPoint : Prop :=
  encode .decrypt = 0x0000000E#32 ∧
    ∀ s : State, s.cipherValid = true →
      (valid s.curve ⟨s.snap.op0, s.snap.op1⟩ = true → valid s.curve ⟨s.snap.op2, s.snap.op3⟩ = true →
        exec .decrypt s = .next { s with
          res0 := (ecAdd s.curve ⟨s.snap.op2, s.snap.op3⟩
            (ecNeg s.curve (ecSmul s.curve ⟨s.snap.op0, s.snap.op1⟩ s.snap.op4.toNat))).x
          res1 := (ecAdd s.curve ⟨s.snap.op2, s.snap.op3⟩
            (ecNeg s.curve (ecSmul s.curve ⟨s.snap.op0, s.snap.op1⟩ s.snap.op4.toNat))).y
          errCode := .noError, done := true, pending := none })
      ∧ ((valid s.curve ⟨s.snap.op0, s.snap.op1⟩ = false ∨ valid s.curve ⟨s.snap.op2, s.snap.op3⟩ = false) →
        exec .decrypt s = .next { s with errCode := .invalidPoint, done := true, pending := none })

/-! ### The commands: point encoding -/

/-- `43_point_encoding.md` R231: MAP_BUILD writes `i·G` to every entry below N, leaves the entries from N on, sets MAP_VALID and changes
nothing else; MAP_CAPACITY when N is greater than MAP_DEPTH. -/
def Obligations.MapBuildFillsTheMap : Prop :=
  encode .mapBuild = 0x0000000F#32 ∧
    ∀ s : State, s.cipherValid = true →
      (s.orderN.toNat ≤ s.mapDepth →
        ∃ t, exec .mapBuild s = .next t
          ∧ t = { s with mapRam := t.mapRam, mapValid := true, errCode := .noError, done := true, pending := none }
          ∧ (∀ i, i < s.orderN.toNat → mapRead t i = ecSmul s.curve s.gen i)
          ∧ ∀ i, s.orderN.toNat ≤ i → mapRead t i = mapRead s i)
      ∧ (s.mapDepth < s.orderN.toNat →
        exec .mapBuild s = .next { s with errCode := .mapCapacity, done := true, pending := none })

/-- `43_point_encoding.md` R233: ENCODE gives entry s of the MAP RAM when `s < N`, else SYMBOL_RANGE. The entry exists when N is at
most MAP_DEPTH, which `10_state.md` R44 says of every state with MAP_VALID = 1. -/
def Obligations.EncodeReadsTheMapEntry : Prop :=
  encode .encodeSymbol = 0x00000010#32 ∧
    ∀ s : State, s.mapValid = true →
      (s.orderN.toNat ≤ s.mapDepth → s.snap.op0.toNat < s.orderN.toNat →
        exec .encodeSymbol s = .next { s with
          res0 := (mapRead s s.snap.op0.toNat).x, res1 := (mapRead s s.snap.op0.toNat).y
          errCode := .noError, done := true, pending := none })
      ∧ (s.orderN.toNat ≤ s.snap.op0.toNat →
        exec .encodeSymbol s = .next { s with errCode := .symbolRange, done := true, pending := none })

/-- `43_point_encoding.md` R235: DECODE gives the least index below N whose entry equals the operand point on both coordinates, else
UNKNOWN_POINT. The entries exist when N is at most MAP_DEPTH, which `10_state.md` R44 says of every state with MAP_VALID = 1. -/
def Obligations.DecodeFindsTheLeastIndex : Prop :=
  encode .decodePoint = 0x00000011#32 ∧
    ∀ s : State, s.mapValid = true → s.orderN.toNat ≤ s.mapDepth →
      (∀ i, i < s.orderN.toNat → mapRead s i = ⟨s.snap.op0, s.snap.op1⟩ →
        (∀ j, j < i → mapRead s j ≠ ⟨s.snap.op0, s.snap.op1⟩) →
        exec .decodePoint s = .next { s with
          res0 := BitVec.ofNat 32 i, errCode := .noError, done := true, pending := none })
      ∧ ((∀ j, j < s.orderN.toNat → mapRead s j ≠ ⟨s.snap.op0, s.snap.op1⟩) →
        exec .decodePoint s = .next { s with errCode := .unknownPoint, done := true, pending := none })

/-- The model's one fault: where ENCODE or DECODE would read a MAP RAM entry at MAP_DEPTH or more, which does not exist
(`20_memory.md` R61, which says that no command reads one). -/
def Obligations.AbsentMapEntryFaults : Prop :=
  ∀ s : State, s.mapValid = true →
    (s.mapDepth ≤ s.snap.op0.toNat → s.snap.op0.toNat < s.orderN.toNat →
      exec .encodeSymbol s = .fault .mapEntryAbsent)
    ∧ (s.mapDepth < s.orderN.toNat → (∀ j, j < s.mapDepth → mapRead s j ≠ ⟨s.snap.op0, s.snap.op1⟩) →
      exec .decodePoint s = .fault .mapEntryAbsent)

/-! ### All commands -/

/-- A command whose needed flag is 0 completes with NOT_READY before anything else is looked at, and no other command ever reports
NOT_READY (`30_encoding.md` R95 column "needs", `60_exceptions.md` R283 step 2; NOP, INV, SQRT and CURVE_LOAD need no set-up,
`70_reset_and_hazards.md` R325). -/
def Obligations.NotReadyExactlyWithoutTheNeededFlag : Prop :=
  ∀ (i : Instr) (s : State),
    (ready i s = false → exec i s = .next { s with errCode := .notReady, done := true, pending := none })
      ∧ (ready i s = true → ∀ t, exec i s = .next t → t.errCode ≠ .notReady)
      ∧ (i = .nop ∨ i = .inv ∨ i = .sqrt ∨ i = .curveLoad → ready i s = true)

/-- `44_command_control.md` R264: a command that raises an error, legal or an illegal word, applies none of its writes; only ERR_CODE,
ERR, BUSY and DONE change. -/
def Obligations.ErrorsWriteNothing : Prop :=
  (∀ (i : Instr) (s t : State), exec i s = .next t → t.errCode ≠ .noError →
    t = { s with errCode := t.errCode, done := true, pending := none })
  ∧ ∀ (w : Word) (s t : State), completeWord w s = .next t → t.errCode ≠ .noError →
      t = { s with errCode := t.errCode, done := true, pending := none }

/-- `60_exceptions.md` R281: the code of each error, and which command can report which. -/
def Obligations.ErrorCodesAreThoseOfTheTable : Prop :=
  [ErrCode.noError, .invalidCurveParameters, .noSquareRoot, .noPointAtX, .invalidGenerator, .invalidPoint, .orderNotFound,
      .unknownPoint, .noInverse, .illegalCommand, .notReady, .operandRange, .symbolRange, .mapCapacity].map ErrCode.code =
    [0x00#8, 0x01#8, 0x02#8, 0x03#8, 0x04#8, 0x05#8, 0x06#8, 0x07#8, 0x08#8, 0x10#8, 0x11#8, 0x12#8, 0x13#8, 0x14#8]
  ∧ (∀ (i : Instr) (s t : State), exec i s = .next t → t.errCode = .noError ∨ t.errCode ∈ raises i)
  ∧ ∀ (w : Word) (s t : State) (x : IllegalWord), decode w = .error x → completeWord w s = .next t →
      t.errCode = .illegalCommand

/-- The frame of every completion: CTRL, OVR, CMD, OP0 to OP4, `snap` and MAPCAP stay, BUSY falls and DONE rises
(`44_command_control.md` R263), and a result register that R95 does not name for the command keeps its value
(`10_state.md` R36). The completion of an illegal word also leaves every result register, the configuration and the MAP RAM
(`30_encoding.md` R96). -/
def Obligations.CompletionFrameOfEveryCommand : Prop :=
  (∀ (w : Word) (s t : State), completeWord w s = .next t → CompletionFrame s t ∧ t.pending = none ∧ t.done = true)
  ∧ (∀ (i : Instr) (s t : State), exec i s = .next t →
    CompletionFrame s t ∧ t.pending = none ∧ t.done = true ∧ ∀ k : Fin 4, k ∉ resultSlots i → t.res k = s.res k)
  ∧ ∀ (w : Word) (x : IllegalWord) (s t : State), decode w = .error x → completeWord w s = .next t →
    ResultFrame s t ∧ ConfigFrame s t ∧ MapFrame s t

/-- Only CURVE_LOAD writes the curve registers and CURVE_VALID, only CURVE_LOAD and CIPHER_LOAD the cipher context, only MAP_BUILD the
MAP RAM (`10_state.md` R34, R37 to R39): every other command leaves them. -/
def Obligations.ConfigurationWrittenByLoadsOnly : Prop :=
  ∀ (i : Instr) (s t : State), exec i s = .next t →
    (i ≠ .curveLoad → i ≠ .cipherLoad → i ≠ .mapBuild → ConfigFrame s t)
    ∧ (i ≠ .mapBuild → MapFrame s t)
    ∧ (i ≠ .curveLoad → t.curve = s.curve ∧ t.curveValid = s.curveValid)
    ∧ (i = .mapBuild → t.gen = s.gen ∧ t.orderN = s.orderN ∧ t.cipherValid = s.cipherValid)

/-- `10_state.md` R30, over the whole machine: CURVE_VALID is set only by a successful CURVE_LOAD, with a curve that passes the checks of
R141, and nothing clears it except reset; the curve registers change with CURVE_LOAD and reset only (R37). -/
def Obligations.CurveChangesByLoadOrResetOnly : Prop :=
  ∀ s t : State, step s = .next t →
    (s.curveValid = true → t.curveValid = false → ∃ rest, s.schedule = .reset :: rest)
    ∧ (s.curveValid = false → t.curveValid = true →
      (∃ w, s.pending = some w ∧ decode w = .ok .curveLoad) ∧ t.errCode = .noError ∧ CurveSound t.curve)
    ∧ (t.curve ≠ s.curve →
      (∃ rest, s.schedule = .reset :: rest) ∨ ((∃ w, s.pending = some w ∧ decode w = .ok .curveLoad) ∧ t.errCode = .noError))

/-! ### The machine as a whole -/

/-- The invariants of `10_state.md` R44 hold right after reset, for every legal MAP_DEPTH and every schedule. -/
def Obligations.InvariantsHoldAtReset : Prop :=
  ∀ (d : Word) (es : List Event), 256 ≤ d.toNat → EngineInv { State.reset with mapcap := d, schedule := es }

/-- Every step from a state that satisfies the invariants of `10_state.md` R44 gives one that satisfies them. -/
def Obligations.StepKeepsInvariants : Prop :=
  ∀ s t : State, EngineInv s → step s = .next t → EngineInv t

/-- `10_state.md` R44: every reachable state satisfies the invariants, for every legal MAP_DEPTH and every interleaving of host
accesses, engine turns and resets. -/
def Obligations.ReachableStatesSatisfyInvariants : Prop :=
  ∀ (d : Word) (es : List Event) (n : Nat) (t : State), 256 ≤ d.toNat →
    Host.Core.run Sys2Proof.core n { State.reset with mapcap := d, schedule := es } = .next t → EngineInv t

/-- No error stops the engine (`60_exceptions.md` R280): from a state that satisfies the invariants no step faults, and one is refused
only for an access that the engine does not admit. -/
def Obligations.NothingStopsTheEngine : Prop :=
  ∀ s : State, EngineInv s →
    (∃ t, step s = .next t)
      ∨ (step s = .refused .busError ∧ ∃ a rest, s.schedule = .access a :: rest ∧ a.admitted = false)

/-- `41_curve_group.md` R157: identity, inverse, commutativity, associativity, scalar consistency and order correctness, for all valid
points of a sound curve. With them, closure: IDENT, sums and negations of valid points are valid. R157 lists no closure property; it
rests on the group law theorem that R157 calls general knowledge. -/
def Obligations.ValidPointsFormAGroup : Prop :=
  ∀ (c : Curve) (p1 p2 p3 : Point), CurveSound c → valid c p1 = true → valid c p2 = true → valid c p3 = true →
    (valid c ident = true ∧ valid c (ecAdd c p1 p2) = true ∧ valid c (ecNeg c p1) = true)
    ∧ ecAdd c p1 ident = p1 ∧ ecAdd c p1 (ecNeg c p1) = ident
    ∧ ecAdd c (ecAdd c p1 p2) p3 = ecAdd c p1 (ecAdd c p2 p3)
    ∧ ecAdd c p1 p2 = ecAdd c p2 p1
    ∧ (∀ k, ecSmul c p1 k = (fun r => ecAdd c r p1)^[k] ident)
    ∧ ∀ n, ecOrder c p1 = some n → ecSmul c p1 n = ident ∧ ∀ i, 0 < i → i < n → ecSmul c p1 i ≠ ident

/-- `43_point_encoding.md` R232: entry 0 of a built map is IDENT, entry 1 is G, every entry is valid, and the N entries are pairwise
distinct; every multiple of G is an entry below N, so that the map is the bijection R232 speaks of. -/
def Obligations.BuiltMapIsBijective : Prop :=
  ∀ s : State, EngineInv s → s.mapValid = true →
    mapRead s 0 = ident ∧ mapRead s 1 = s.gen
    ∧ (∀ i, i < s.orderN.toNat → valid s.curve (mapRead s i) = true)
    ∧ (∀ i j, i < j → j < s.orderN.toNat → mapRead s i ≠ mapRead s j)
    ∧ ∀ k, ∃ i, i < s.orderN.toNat ∧ mapRead s i = ecSmul s.curve s.gen k

/-- `43_point_encoding.md` R236: DECODE of the result of ENCODE s returns s, for every `s < N`, on one built map. -/
def Obligations.EncodingRoundTrip : Prop :=
  ∀ s : State, EngineInv s → s.mapValid = true → s.snap.op0.toNat < s.orderN.toNat →
    ∃ t u, exec .encodeSymbol s = .next t
      ∧ exec .decodePoint { t with snap := { t.snap with op0 := t.res0, op1 := t.res1 } } = .next u
      ∧ u.errCode = .noError ∧ u.res0 = s.snap.op0

/-- `42_elgamal.md` R205: for every valid m and all scalars, DECRYPT(ENCRYPT(m, KEYGEN(priv), r), priv) is m, on one cipher context. -/
def Obligations.ElGamalRoundTrip : Prop :=
  ∀ (s : State) (m : Point) (priv r : Word), EngineInv s → s.cipherValid = true → valid s.curve m = true →
    ∃ k e d, exec .keygen { s with snap := { s.snap with op4 := priv } } = .next k
      ∧ exec .encrypt { k with snap := ⟨m.x, m.y, k.res0, k.res1, r⟩ } = .next e
      ∧ exec .decrypt { e with snap := ⟨e.res0, e.res1, e.res2, e.res3, priv⟩ } = .next d
      ∧ d.errCode = .noError ∧ (⟨d.res0, d.res1⟩ : Point) = m
end

