-- ==== Sys2Proof/Laws/Arith.lean ====
section
/-! SUPPORT. The bounded searches, `mod` and primality (`00_scope.md` R9, R13; `40_modular_arith.md` R120, R124; `41_curve_group.md`
R140): one specification lemma for each function. -/

namespace Sys2Proof.Machine

/-! ### Bounded search -/

theorem leastFrom_eq_some {p : Nat → Bool} {n lo t : Nat} :
    leastFrom p n lo = some t ↔ lo ≤ t ∧ t < lo + n ∧ p t = true ∧ ∀ u, lo ≤ u → u < t → p u = false := by
  induction n generalizing lo with
  | zero => simp only [leastFrom]; constructor
            · intro h; cases h
            · rintro ⟨h1, h2, -⟩; omega
  | succ n ih =>
    by_cases hp : p lo = true
    · simp only [leastFrom, hp, if_true, Option.some.injEq]
      constructor
      · rintro rfl
        exact ⟨le_refl _, by omega, hp, fun u h1 h2 => by omega⟩
      · rintro ⟨h1, -, -, h4⟩
        by_contra hne
        exact absurd hp (by simp [h4 lo (le_refl _) (by omega)])
    · simp only [leastFrom, hp, Bool.false_eq_true, if_false, ih]
      constructor
      · rintro ⟨h1, h2, h3, h4⟩
        refine ⟨by omega, by omega, h3, fun u hu hut => ?_⟩
        rcases Nat.eq_or_lt_of_le hu with rfl | h
        · simpa using hp
        · exact h4 u h hut
      · rintro ⟨h1, h2, h3, h4⟩
        have hne : lo ≠ t := by rintro rfl; exact hp h3
        exact ⟨by omega, by omega, h3, fun u hu hut => h4 u (by omega) hut⟩

theorem leastFrom_eq_none {p : Nat → Bool} {n lo : Nat} :
    leastFrom p n lo = none ↔ ∀ u, lo ≤ u → u < lo + n → p u = false := by
  induction n generalizing lo with
  | zero => simp only [leastFrom, true_iff]; intro u h1 h2; omega
  | succ n ih =>
    by_cases hp : p lo = true
    · simp only [leastFrom, hp, if_true, reduceCtorEq, false_iff]
      intro h
      exact absurd hp (by simp [h lo (le_refl _) (by omega)])
    · simp only [leastFrom, hp, Bool.false_eq_true, if_false, ih]
      constructor
      · intro h u h1 h2
        rcases Nat.eq_or_lt_of_le h1 with rfl | h'
        · simpa using hp
        · exact h u h' (by omega)
      · exact fun h u h1 h2 => h u (by omega) (by omega)

/-- `least` finds `t` exactly when `t` is the first index of the range with the property. -/
theorem least_eq_some {lo hi t : Nat} {p : Nat → Bool} :
    least lo hi p = some t ↔ lo ≤ t ∧ t < hi ∧ p t = true ∧ ∀ u, lo ≤ u → u < t → p u = false := by
  rw [least, leastFrom_eq_some]
  constructor
  · rintro ⟨h1, h2, h3⟩; exact ⟨h1, by omega, h3⟩
  · rintro ⟨h1, h2, h3⟩; exact ⟨h1, by omega, h3⟩

/-- `least` answers NONE exactly when no index of the range has the property. -/
theorem least_eq_none {lo hi : Nat} {p : Nat → Bool} :
    least lo hi p = none ↔ ∀ u, lo ≤ u → u < hi → p u = false := by
  rw [least, leastFrom_eq_none]
  constructor
  · exact fun h u h1 h2 => h u h1 (by omega)
  · exact fun h u h1 h2 => h u h1 (by omega)

/-! ### `mod` -/

theorem mod_pos {m : Nat} (hm : 0 < m) (v : Int) : (mod v m : Int) = v % m := by
  rw [mod, if_neg (by omega), Int.toNat_of_nonneg (Int.emod_nonneg _ (by omega))]

theorem mod_lt {m : Nat} (hm : 0 < m) (v : Int) : mod v m < m := by
  have h : (mod v m : Int) < m := by rw [mod_pos hm]; exact Int.emod_lt_of_pos _ (by omega)
  omega

theorem mod_natCast {m : Nat} (hm : 0 < m) (v : Nat) : mod (v : Int) m = v % m := by
  have h : (mod (v : Int) m : Int) = ((v % m : Nat) : Int) := by rw [mod_pos hm]; norm_cast
  exact_mod_cast h

theorem mod_eq_zero_iff {m : Nat} (hm : 0 < m) (v : Int) : mod v m = 0 ↔ (m : Int) ∣ v := by
  rw [Int.dvd_iff_emod_eq_zero, ← mod_pos hm]
  exact_mod_cast Iff.rfl

/-! ### Stored values -/

theorem toWord_toNat {v : Nat} (hv : v < 2 ^ 32) : (toWord v).toNat = v := by
  rw [toWord, BitVec.toNat_ofNat, Nat.mod_eq_of_lt hv]

/-- A residue modulo a 32-bit modulus fits in a register (`00_scope.md` R7). -/
theorem toWord_mod_toNat {q : Word} (hq : 0 < q.toNat) (v : Int) : (toWord (mod v q.toNat)).toNat = mod v q.toNat :=
  toWord_toNat ((mod_lt hq v).trans q.isLt)

/-! ### The searches of the pseudocode -/

theorem invSearch_eq_some {v m t : Nat} :
    invSearch v m = some t ↔ t < m ∧ v * t % m = 1 ∧ ∀ u < t, v * u % m ≠ 1 := by
  rw [invSearch, least_eq_some]
  by_cases hm : m = 0
  · subst hm; simp
  · have key : ∀ u : Nat, mod ((v : Int) * u) m = v * u % m := fun u => by
      rw [← Nat.cast_mul, mod_natCast (by omega)]
    simp [key]

theorem invSearch_eq_none {v m : Nat} : invSearch v m = none ↔ ∀ t < m, v * t % m ≠ 1 := by
  rw [invSearch, least_eq_none]
  by_cases hm : m = 0
  · subst hm; simp
  · have key : ∀ u : Nat, mod ((v : Int) * u) m = v * u % m := fun u => by
      rw [← Nat.cast_mul, mod_natCast (by omega)]
    simp [key]

theorem sqrtSearch_eq_some {n m i : Nat} :
    sqrtSearch n m = some i ↔ 1 ≤ i ∧ i < m ∧ i * i % m = n ∧ ∀ u, 1 ≤ u → u < i → u * u % m ≠ n := by
  rw [sqrtSearch, least_eq_some]
  by_cases hm : m = 0
  · subst hm; simp
  · have key : ∀ u : Nat, mod ((u : Int) * u) m = u * u % m := fun u => by
      rw [← Nat.cast_mul, mod_natCast (by omega)]
    simp [key]

theorem sqrtSearch_eq_none {n m : Nat} : sqrtSearch n m = none ↔ ∀ i, 1 ≤ i → i < m → i * i % m ≠ n := by
  rw [sqrtSearch, least_eq_none]
  by_cases hm : m = 0
  · subst hm; simp
  · have key : ∀ u : Nat, mod ((u : Int) * u) m = u * u % m := fun u => by
      rw [← Nat.cast_mul, mod_natCast (by omega)]
    simp [key]

/-- The definition of R140 is primality. -/
theorem isPrime_iff {v : Nat} : isPrime v = true ↔ Nat.Prime v := by
  rw [isPrime, Bool.and_eq_true, decide_eq_true_eq, Option.isNone_iff_eq_none, least_eq_none, Nat.prime_def_lt']
  simp only [beq_eq_false_iff_ne, Nat.dvd_iff_mod_eq_zero, ne_eq]

end Sys2Proof.Machine
end

