-- ==== Sys2Proof/Laws/Curve.lean ====
section
/-! SUPPORT. The curve functions in plain arithmetic (`41_curve_group.md` R141, R143, R145, R149): one specification lemma each. -/

namespace Sys2Proof.Machine

theorem inField_iff {c : Curve} {p : Point} :
    inField c p = true ↔ p.x.toNat < c.q.toNat ∧ p.y.toNat < c.q.toNat := by
  simp [inField]

/-- The check of CURVE_LOAD is soundness of the curve (R141). -/
theorem curveOk_iff {c : Curve} : curveOk c = true ↔ CurveSound c := by
  have key : 0 < c.q.toNat → mod (4 * (c.a.toNat : Int) ^ 3 + 27 * (c.b.toNat : Int) ^ 2) c.q.toNat =
      (4 * c.a.toNat ^ 3 + 27 * c.b.toNat ^ 2) % c.q.toNat := fun h => by
    rw [← mod_natCast h]; push_cast; rfl
  unfold curveOk
  simp only [Bool.and_eq_true, decide_eq_true_eq, bne_iff_ne, isPrime_iff]
  constructor
  · rintro ⟨⟨⟨⟨h1, h2⟩, h3, h4⟩, h5, h6⟩, h7⟩
    rw [key (by omega)] at h7
    exact ⟨h1, h2, h3, h4, h5, h6, h7⟩
  · rintro ⟨h1, h2, h3, h4, h5, h6, h7⟩
    rw [← key (by omega)] at h7
    exact ⟨⟨⟨⟨h1, h2⟩, h3, h4⟩, h5, h6⟩, h7⟩

/-- The right-hand side of the curve equation (R143). -/
theorem rhs_eq {c : Curve} (hq : 0 < c.q.toNat) (x : Nat) :
    rhs c x = (x ^ 3 + c.a.toNat * x + c.b.toNat) % c.q.toNat := by
  rw [rhs, ← mod_natCast hq]; push_cast; rfl

/-- Validity of a point (R145). -/
theorem valid_iff {c : Curve} {p : Point} :
    valid c p = true ↔ p.x.toNat < c.q.toNat ∧ p.y.toNat < c.q.toNat ∧ (p = ident ∨
      p.y.toNat ^ 2 % c.q.toNat = (p.x.toNat ^ 3 + c.a.toNat * p.x.toNat + c.b.toNat) % c.q.toNat) := by
  unfold valid
  simp only [Bool.and_eq_true, inField_iff, Bool.or_eq_true, decide_eq_true_eq, beq_iff_eq, and_assoc]
  refine and_congr_right fun h1 => and_congr_right fun h2 => or_congr Iff.rfl ?_
  rw [mod_eq_zero_iff (by omega), ← Int.modEq_iff_dvd, Int.modEq_comm]
  exact_mod_cast (Int.natCast_modEq_iff (a := p.y.toNat ^ 2)
    (b := p.x.toNat ^ 3 + c.a.toNat * p.x.toNat + c.b.toNat) (n := c.q.toNat))

theorem ecAdd_ident_left (c : Curve) (p : Point) : ecAdd c ident p = p := by simp [ecAdd]

theorem ecAdd_ident_right (c : Curve) (p : Point) : ecAdd c p ident = p := by
  by_cases h : p = ident <;> simp [ecAdd, h]

/-- A point of the last two cases of R149 has both coordinates below Q. -/
theorem chordPoint_inField {c : Curve} (hq : 0 < c.q.toNat) (l : Nat) (x1 y1 x2 : Int) :
    inField c (chordPoint c l x1 y1 x2) = true := by
  simp only [inField_iff, chordPoint, toWord_mod_toNat hq]
  exact ⟨mod_lt hq _, mod_lt hq _⟩

theorem ident_inField {c : Curve} (hq : 0 < c.q.toNat) : inField c ident = true := by
  simp [inField_iff, ident, hq]

/-- The order search (R155). -/
theorem ecOrder_eq_some {c : Curve} {p : Point} {n : Nat} :
    ecOrder c p = some n ↔
      1 ≤ n ∧ n ≤ c.q.toNat ∧ ecSmul c p n = ident ∧ ∀ i, 1 ≤ i → i < n → ecSmul c p i ≠ ident := by
  simp [ecOrder, least_eq_some]

theorem ecOrder_eq_none {c : Curve} {p : Point} :
    ecOrder c p = none ↔ ∀ i, 1 ≤ i → i ≤ c.q.toNat → ecSmul c p i ≠ ident := by
  simp [ecOrder, least_eq_none]

/-- As many rounds as the scalar has binary digits are enough: at most 32 for a 32-bit scalar (`44_command_control.md` R267). -/
theorem smulLoop_rounds (c : Curve) {n m j : Nat} (r t : Point) (hn : j < 2 ^ n) (hm : j ≤ m) :
    smulLoop c n r t j = smulLoop c m r t j := by
  induction n generalizing m j r t with
  | zero =>
    obtain rfl : j = 0 := by simpa using hn
    cases m <;> simp [smulLoop]
  | succ n ih =>
    by_cases h0 : j = 0
    · subst h0; cases m <;> simp [smulLoop]
    · cases m with
      | zero => omega
      | succ m =>
        simp only [smulLoop, h0, if_false]
        exact ih _ _ (by rw [pow_succ] at hn; omega) (by omega)

/-- A 32-bit scalar needs at most 32 rounds of double-and-add (`44_command_control.md` R267). -/
theorem ecSmul_rounds (c : Curve) (p : Point) (k : Word) : ecSmul c p k.toNat = smulLoop c 32 ident p k.toNat :=
  (smulLoop_rounds c ident p k.isLt (le_refl _)).symm

end Sys2Proof.Machine
end

