-- ==== Sys2Proof/Laws/Memory.lean ====
section
/-! SUPPORT. The MAP RAM (`20_memory.md` R61): a read after a write, the canonical form, and the loop of MAP_BUILD. -/

namespace Sys2Proof.Machine

theorem Memory.read_write_same (m : Memory) (i : Nat) (p : Point) : Memory.read (Memory.write m i p) i = some p := by
  induction m with
  | nil => simp [Memory.write, Memory.read]
  | cons e m ih =>
    obtain ⟨j, q⟩ := e
    rcases lt_trichotomy i j with h | rfl | h
    · simp [Memory.write, Memory.read, h]
    · simp [Memory.write, Memory.read]
    · simp [Memory.write, Memory.read, not_lt.mpr h.le, h.ne', ih]

theorem Memory.read_write_other {m : Memory} {i k : Nat} {p : Point} (h : k ≠ i) :
    Memory.read (Memory.write m i p) k = Memory.read m k := by
  induction m with
  | nil => simp [Memory.write, Memory.read, h]
  | cons e m ih =>
    obtain ⟨j, q⟩ := e
    rcases lt_trichotomy i j with hij | rfl | hij
    · simp only [Memory.write, hij, if_true, Memory.read, h, if_false]
      by_cases hk : k < i
      · simp [hk, show k ≠ j by omega, show k < j by omega]
      · simp [hk]
    · simp [Memory.write, Memory.read, h]
    · simp [Memory.write, Memory.read, not_lt.mpr hij.le, hij.ne', ih]

theorem Memory.risingFrom_write {m : Memory} {lo i : Nat} {p : Point} (hm : Memory.risingFrom lo m = true) (hi : lo < i) :
    Memory.risingFrom lo (Memory.write m i p) = true := by
  induction m generalizing lo with
  | nil => simp [Memory.write, Memory.risingFrom, hi]
  | cons e m ih =>
    obtain ⟨j, q⟩ := e
    simp only [Memory.risingFrom, Bool.and_eq_true, decide_eq_true_eq] at hm
    rcases lt_trichotomy i j with h | rfl | h
    · simp [Memory.write, Memory.risingFrom, h, hi, hm.2]
    · simp [Memory.write, Memory.risingFrom, hi, hm.2]
    · simp [Memory.write, Memory.risingFrom, not_lt.mpr h.le, h.ne', hm.1, ih hm.2 h]

/-- Every write keeps the canonical form. -/
theorem Memory.wf_write {m : Memory} (i : Nat) (p : Point) (hm : Memory.wf m = true) :
    Memory.wf (Memory.write m i p) = true := by
  cases m with
  | nil => simp [Memory.write, Memory.wf, Memory.risingFrom]
  | cons e m =>
    obtain ⟨j, q⟩ := e
    simp only [Memory.wf] at hm
    rcases lt_trichotomy i j with h | rfl | h
    · simp [Memory.write, Memory.wf, Memory.risingFrom, h, hm]
    · simp [Memory.write, Memory.wf, hm]
    · simp [Memory.write, Memory.wf, not_lt.mpr h.le, h.ne', Memory.risingFrom_write hm h]

/-- The loop of MAP_BUILD keeps the canonical form. -/
theorem Memory.wf_fill (f : Nat → Point) (n : Nat) {m : Memory} (hm : Memory.wf m = true) :
    Memory.wf (Memory.fill f n m) = true := by
  induction n with
  | zero => exact hm
  | succ n ih => exact Memory.wf_write n (f n) ih

/-- What the loop of MAP_BUILD leaves in every entry: the new points below `n`, the old contents from `n` on. -/
theorem Memory.read_fill (f : Nat → Point) (n : Nat) (m : Memory) (i : Nat) :
    Memory.read (Memory.fill f n m) i = if i < n then some (f i) else Memory.read m i := by
  induction n with
  | zero => simp [Memory.fill]
  | succ n ih =>
    rcases eq_or_ne i n with rfl | h
    · simp [Memory.fill, Memory.read_write_same]
    · rw [Memory.fill, Memory.read_write_other h, ih]
      by_cases hi : i < n
      · simp [hi, show i < n + 1 by omega]
      · simp [hi, show ¬ i < n + 1 by omega]

end Sys2Proof.Machine
end

