-- ==== Sys2Proof/Laws/State.lean ====
section
/-! SUPPORT. One lemma per field per named update of the state, each true by definition, so that no proof unfolds a record update. -/

namespace Sys2Proof.Machine

@[simp] theorem State.setRes0_ie (v : Word) (s : State) : (s.setRes0 v).ie = s.ie := rfl
@[simp] theorem State.setRes0_done (v : Word) (s : State) : (s.setRes0 v).done = s.done := rfl
@[simp] theorem State.setRes0_ovr (v : Word) (s : State) : (s.setRes0 v).ovr = s.ovr := rfl
@[simp] theorem State.setRes0_errCode (v : Word) (s : State) : (s.setRes0 v).errCode = s.errCode := rfl
@[simp] theorem State.setRes0_curveValid (v : Word) (s : State) : (s.setRes0 v).curveValid = s.curveValid := rfl
@[simp] theorem State.setRes0_cipherValid (v : Word) (s : State) : (s.setRes0 v).cipherValid = s.cipherValid := rfl
@[simp] theorem State.setRes0_mapValid (v : Word) (s : State) : (s.setRes0 v).mapValid = s.mapValid := rfl
@[simp] theorem State.setRes0_cmd (v : Word) (s : State) : (s.setRes0 v).cmd = s.cmd := rfl
@[simp] theorem State.setRes0_ops (v : Word) (s : State) : (s.setRes0 v).ops = s.ops := rfl
@[simp] theorem State.setRes0_res0 (v : Word) (s : State) : (s.setRes0 v).res0 = v := rfl
@[simp] theorem State.setRes0_res1 (v : Word) (s : State) : (s.setRes0 v).res1 = s.res1 := rfl
@[simp] theorem State.setRes0_res2 (v : Word) (s : State) : (s.setRes0 v).res2 = s.res2 := rfl
@[simp] theorem State.setRes0_res3 (v : Word) (s : State) : (s.setRes0 v).res3 = s.res3 := rfl
@[simp] theorem State.setRes0_curve (v : Word) (s : State) : (s.setRes0 v).curve = s.curve := rfl
@[simp] theorem State.setRes0_gen (v : Word) (s : State) : (s.setRes0 v).gen = s.gen := rfl
@[simp] theorem State.setRes0_orderN (v : Word) (s : State) : (s.setRes0 v).orderN = s.orderN := rfl
@[simp] theorem State.setRes0_mapcap (v : Word) (s : State) : (s.setRes0 v).mapcap = s.mapcap := rfl
@[simp] theorem State.setRes0_mapRam (v : Word) (s : State) : (s.setRes0 v).mapRam = s.mapRam := rfl
@[simp] theorem State.setRes0_pending (v : Word) (s : State) : (s.setRes0 v).pending = s.pending := rfl
@[simp] theorem State.setRes0_snap (v : Word) (s : State) : (s.setRes0 v).snap = s.snap := rfl
@[simp] theorem State.setRes0_schedule (v : Word) (s : State) : (s.setRes0 v).schedule = s.schedule := rfl
@[simp] theorem State.setRes0_hostReads (v : Word) (s : State) : (s.setRes0 v).hostReads = s.hostReads := rfl
@[simp] theorem State.setRes0_resets (v : Word) (s : State) : (s.setRes0 v).resets = s.resets := rfl

@[simp] theorem State.setRes01_ie (v w : Word) (s : State) : (s.setRes01 v w).ie = s.ie := rfl
@[simp] theorem State.setRes01_done (v w : Word) (s : State) : (s.setRes01 v w).done = s.done := rfl
@[simp] theorem State.setRes01_ovr (v w : Word) (s : State) : (s.setRes01 v w).ovr = s.ovr := rfl
@[simp] theorem State.setRes01_errCode (v w : Word) (s : State) : (s.setRes01 v w).errCode = s.errCode := rfl
@[simp] theorem State.setRes01_curveValid (v w : Word) (s : State) : (s.setRes01 v w).curveValid = s.curveValid := rfl
@[simp] theorem State.setRes01_cipherValid (v w : Word) (s : State) : (s.setRes01 v w).cipherValid = s.cipherValid := rfl
@[simp] theorem State.setRes01_mapValid (v w : Word) (s : State) : (s.setRes01 v w).mapValid = s.mapValid := rfl
@[simp] theorem State.setRes01_cmd (v w : Word) (s : State) : (s.setRes01 v w).cmd = s.cmd := rfl
@[simp] theorem State.setRes01_ops (v w : Word) (s : State) : (s.setRes01 v w).ops = s.ops := rfl
@[simp] theorem State.setRes01_res0 (v w : Word) (s : State) : (s.setRes01 v w).res0 = v := rfl
@[simp] theorem State.setRes01_res1 (v w : Word) (s : State) : (s.setRes01 v w).res1 = w := rfl
@[simp] theorem State.setRes01_res2 (v w : Word) (s : State) : (s.setRes01 v w).res2 = s.res2 := rfl
@[simp] theorem State.setRes01_res3 (v w : Word) (s : State) : (s.setRes01 v w).res3 = s.res3 := rfl
@[simp] theorem State.setRes01_curve (v w : Word) (s : State) : (s.setRes01 v w).curve = s.curve := rfl
@[simp] theorem State.setRes01_gen (v w : Word) (s : State) : (s.setRes01 v w).gen = s.gen := rfl
@[simp] theorem State.setRes01_orderN (v w : Word) (s : State) : (s.setRes01 v w).orderN = s.orderN := rfl
@[simp] theorem State.setRes01_mapcap (v w : Word) (s : State) : (s.setRes01 v w).mapcap = s.mapcap := rfl
@[simp] theorem State.setRes01_mapRam (v w : Word) (s : State) : (s.setRes01 v w).mapRam = s.mapRam := rfl
@[simp] theorem State.setRes01_pending (v w : Word) (s : State) : (s.setRes01 v w).pending = s.pending := rfl
@[simp] theorem State.setRes01_snap (v w : Word) (s : State) : (s.setRes01 v w).snap = s.snap := rfl
@[simp] theorem State.setRes01_schedule (v w : Word) (s : State) : (s.setRes01 v w).schedule = s.schedule := rfl
@[simp] theorem State.setRes01_hostReads (v w : Word) (s : State) : (s.setRes01 v w).hostReads = s.hostReads := rfl
@[simp] theorem State.setRes01_resets (v w : Word) (s : State) : (s.setRes01 v w).resets = s.resets := rfl

@[simp] theorem State.setRes23_ie (v w : Word) (s : State) : (s.setRes23 v w).ie = s.ie := rfl
@[simp] theorem State.setRes23_done (v w : Word) (s : State) : (s.setRes23 v w).done = s.done := rfl
@[simp] theorem State.setRes23_ovr (v w : Word) (s : State) : (s.setRes23 v w).ovr = s.ovr := rfl
@[simp] theorem State.setRes23_errCode (v w : Word) (s : State) : (s.setRes23 v w).errCode = s.errCode := rfl
@[simp] theorem State.setRes23_curveValid (v w : Word) (s : State) : (s.setRes23 v w).curveValid = s.curveValid := rfl
@[simp] theorem State.setRes23_cipherValid (v w : Word) (s : State) : (s.setRes23 v w).cipherValid = s.cipherValid := rfl
@[simp] theorem State.setRes23_mapValid (v w : Word) (s : State) : (s.setRes23 v w).mapValid = s.mapValid := rfl
@[simp] theorem State.setRes23_cmd (v w : Word) (s : State) : (s.setRes23 v w).cmd = s.cmd := rfl
@[simp] theorem State.setRes23_ops (v w : Word) (s : State) : (s.setRes23 v w).ops = s.ops := rfl
@[simp] theorem State.setRes23_res0 (v w : Word) (s : State) : (s.setRes23 v w).res0 = s.res0 := rfl
@[simp] theorem State.setRes23_res1 (v w : Word) (s : State) : (s.setRes23 v w).res1 = s.res1 := rfl
@[simp] theorem State.setRes23_res2 (v w : Word) (s : State) : (s.setRes23 v w).res2 = v := rfl
@[simp] theorem State.setRes23_res3 (v w : Word) (s : State) : (s.setRes23 v w).res3 = w := rfl
@[simp] theorem State.setRes23_curve (v w : Word) (s : State) : (s.setRes23 v w).curve = s.curve := rfl
@[simp] theorem State.setRes23_gen (v w : Word) (s : State) : (s.setRes23 v w).gen = s.gen := rfl
@[simp] theorem State.setRes23_orderN (v w : Word) (s : State) : (s.setRes23 v w).orderN = s.orderN := rfl
@[simp] theorem State.setRes23_mapcap (v w : Word) (s : State) : (s.setRes23 v w).mapcap = s.mapcap := rfl
@[simp] theorem State.setRes23_mapRam (v w : Word) (s : State) : (s.setRes23 v w).mapRam = s.mapRam := rfl
@[simp] theorem State.setRes23_pending (v w : Word) (s : State) : (s.setRes23 v w).pending = s.pending := rfl
@[simp] theorem State.setRes23_snap (v w : Word) (s : State) : (s.setRes23 v w).snap = s.snap := rfl
@[simp] theorem State.setRes23_schedule (v w : Word) (s : State) : (s.setRes23 v w).schedule = s.schedule := rfl
@[simp] theorem State.setRes23_hostReads (v w : Word) (s : State) : (s.setRes23 v w).hostReads = s.hostReads := rfl
@[simp] theorem State.setRes23_resets (v w : Word) (s : State) : (s.setRes23 v w).resets = s.resets := rfl

@[simp] theorem State.installCurve_ie (c : Curve) (s : State) : (s.installCurve c).ie = s.ie := rfl
@[simp] theorem State.installCurve_done (c : Curve) (s : State) : (s.installCurve c).done = s.done := rfl
@[simp] theorem State.installCurve_ovr (c : Curve) (s : State) : (s.installCurve c).ovr = s.ovr := rfl
@[simp] theorem State.installCurve_errCode (c : Curve) (s : State) : (s.installCurve c).errCode = s.errCode := rfl
@[simp] theorem State.installCurve_curveValid (c : Curve) (s : State) : (s.installCurve c).curveValid = true := rfl
@[simp] theorem State.installCurve_cipherValid (c : Curve) (s : State) : (s.installCurve c).cipherValid = false := rfl
@[simp] theorem State.installCurve_mapValid (c : Curve) (s : State) : (s.installCurve c).mapValid = false := rfl
@[simp] theorem State.installCurve_cmd (c : Curve) (s : State) : (s.installCurve c).cmd = s.cmd := rfl
@[simp] theorem State.installCurve_ops (c : Curve) (s : State) : (s.installCurve c).ops = s.ops := rfl
@[simp] theorem State.installCurve_res0 (c : Curve) (s : State) : (s.installCurve c).res0 = s.res0 := rfl
@[simp] theorem State.installCurve_res1 (c : Curve) (s : State) : (s.installCurve c).res1 = s.res1 := rfl
@[simp] theorem State.installCurve_res2 (c : Curve) (s : State) : (s.installCurve c).res2 = s.res2 := rfl
@[simp] theorem State.installCurve_res3 (c : Curve) (s : State) : (s.installCurve c).res3 = s.res3 := rfl
@[simp] theorem State.installCurve_curve (c : Curve) (s : State) : (s.installCurve c).curve = c := rfl
@[simp] theorem State.installCurve_gen (c : Curve) (s : State) : (s.installCurve c).gen = ident := rfl
@[simp] theorem State.installCurve_orderN (c : Curve) (s : State) : (s.installCurve c).orderN = 0#32 := rfl
@[simp] theorem State.installCurve_mapcap (c : Curve) (s : State) : (s.installCurve c).mapcap = s.mapcap := rfl
@[simp] theorem State.installCurve_mapRam (c : Curve) (s : State) : (s.installCurve c).mapRam = s.mapRam := rfl
@[simp] theorem State.installCurve_pending (c : Curve) (s : State) : (s.installCurve c).pending = s.pending := rfl
@[simp] theorem State.installCurve_snap (c : Curve) (s : State) : (s.installCurve c).snap = s.snap := rfl
@[simp] theorem State.installCurve_schedule (c : Curve) (s : State) : (s.installCurve c).schedule = s.schedule := rfl
@[simp] theorem State.installCurve_hostReads (c : Curve) (s : State) : (s.installCurve c).hostReads = s.hostReads := rfl
@[simp] theorem State.installCurve_resets (c : Curve) (s : State) : (s.installCurve c).resets = s.resets := rfl

@[simp] theorem State.installCipher_ie (g : Point) (n : Word) (s : State) : (s.installCipher g n).ie = s.ie := rfl
@[simp] theorem State.installCipher_done (g : Point) (n : Word) (s : State) : (s.installCipher g n).done = s.done := rfl
@[simp] theorem State.installCipher_ovr (g : Point) (n : Word) (s : State) : (s.installCipher g n).ovr = s.ovr := rfl
@[simp] theorem State.installCipher_errCode (g : Point) (n : Word) (s : State) : (s.installCipher g n).errCode = s.errCode := rfl
@[simp] theorem State.installCipher_curveValid (g : Point) (n : Word) (s : State) : (s.installCipher g n).curveValid = s.curveValid := rfl
@[simp] theorem State.installCipher_cipherValid (g : Point) (n : Word) (s : State) : (s.installCipher g n).cipherValid = true := rfl
@[simp] theorem State.installCipher_mapValid (g : Point) (n : Word) (s : State) : (s.installCipher g n).mapValid = false := rfl
@[simp] theorem State.installCipher_cmd (g : Point) (n : Word) (s : State) : (s.installCipher g n).cmd = s.cmd := rfl
@[simp] theorem State.installCipher_ops (g : Point) (n : Word) (s : State) : (s.installCipher g n).ops = s.ops := rfl
@[simp] theorem State.installCipher_res0 (g : Point) (n : Word) (s : State) : (s.installCipher g n).res0 = s.res0 := rfl
@[simp] theorem State.installCipher_res1 (g : Point) (n : Word) (s : State) : (s.installCipher g n).res1 = s.res1 := rfl
@[simp] theorem State.installCipher_res2 (g : Point) (n : Word) (s : State) : (s.installCipher g n).res2 = s.res2 := rfl
@[simp] theorem State.installCipher_res3 (g : Point) (n : Word) (s : State) : (s.installCipher g n).res3 = s.res3 := rfl
@[simp] theorem State.installCipher_curve (g : Point) (n : Word) (s : State) : (s.installCipher g n).curve = s.curve := rfl
@[simp] theorem State.installCipher_gen (g : Point) (n : Word) (s : State) : (s.installCipher g n).gen = g := rfl
@[simp] theorem State.installCipher_orderN (g : Point) (n : Word) (s : State) : (s.installCipher g n).orderN = n := rfl
@[simp] theorem State.installCipher_mapcap (g : Point) (n : Word) (s : State) : (s.installCipher g n).mapcap = s.mapcap := rfl
@[simp] theorem State.installCipher_mapRam (g : Point) (n : Word) (s : State) : (s.installCipher g n).mapRam = s.mapRam := rfl
@[simp] theorem State.installCipher_pending (g : Point) (n : Word) (s : State) : (s.installCipher g n).pending = s.pending := rfl
@[simp] theorem State.installCipher_snap (g : Point) (n : Word) (s : State) : (s.installCipher g n).snap = s.snap := rfl
@[simp] theorem State.installCipher_schedule (g : Point) (n : Word) (s : State) : (s.installCipher g n).schedule = s.schedule := rfl
@[simp] theorem State.installCipher_hostReads (g : Point) (n : Word) (s : State) : (s.installCipher g n).hostReads = s.hostReads := rfl
@[simp] theorem State.installCipher_resets (g : Point) (n : Word) (s : State) : (s.installCipher g n).resets = s.resets := rfl

@[simp] theorem State.installMap_ie (f : Nat → Point) (s : State) : (s.installMap f).ie = s.ie := rfl
@[simp] theorem State.installMap_done (f : Nat → Point) (s : State) : (s.installMap f).done = s.done := rfl
@[simp] theorem State.installMap_ovr (f : Nat → Point) (s : State) : (s.installMap f).ovr = s.ovr := rfl
@[simp] theorem State.installMap_errCode (f : Nat → Point) (s : State) : (s.installMap f).errCode = s.errCode := rfl
@[simp] theorem State.installMap_curveValid (f : Nat → Point) (s : State) : (s.installMap f).curveValid = s.curveValid := rfl
@[simp] theorem State.installMap_cipherValid (f : Nat → Point) (s : State) : (s.installMap f).cipherValid = s.cipherValid := rfl
@[simp] theorem State.installMap_mapValid (f : Nat → Point) (s : State) : (s.installMap f).mapValid = true := rfl
@[simp] theorem State.installMap_cmd (f : Nat → Point) (s : State) : (s.installMap f).cmd = s.cmd := rfl
@[simp] theorem State.installMap_ops (f : Nat → Point) (s : State) : (s.installMap f).ops = s.ops := rfl
@[simp] theorem State.installMap_res0 (f : Nat → Point) (s : State) : (s.installMap f).res0 = s.res0 := rfl
@[simp] theorem State.installMap_res1 (f : Nat → Point) (s : State) : (s.installMap f).res1 = s.res1 := rfl
@[simp] theorem State.installMap_res2 (f : Nat → Point) (s : State) : (s.installMap f).res2 = s.res2 := rfl
@[simp] theorem State.installMap_res3 (f : Nat → Point) (s : State) : (s.installMap f).res3 = s.res3 := rfl
@[simp] theorem State.installMap_curve (f : Nat → Point) (s : State) : (s.installMap f).curve = s.curve := rfl
@[simp] theorem State.installMap_gen (f : Nat → Point) (s : State) : (s.installMap f).gen = s.gen := rfl
@[simp] theorem State.installMap_orderN (f : Nat → Point) (s : State) : (s.installMap f).orderN = s.orderN := rfl
@[simp] theorem State.installMap_mapcap (f : Nat → Point) (s : State) : (s.installMap f).mapcap = s.mapcap := rfl
@[simp] theorem State.installMap_mapRam (f : Nat → Point) (s : State) : (s.installMap f).mapRam = Memory.fill f s.orderN.toNat s.mapRam := rfl
@[simp] theorem State.installMap_pending (f : Nat → Point) (s : State) : (s.installMap f).pending = s.pending := rfl
@[simp] theorem State.installMap_snap (f : Nat → Point) (s : State) : (s.installMap f).snap = s.snap := rfl
@[simp] theorem State.installMap_schedule (f : Nat → Point) (s : State) : (s.installMap f).schedule = s.schedule := rfl
@[simp] theorem State.installMap_hostReads (f : Nat → Point) (s : State) : (s.installMap f).hostReads = s.hostReads := rfl
@[simp] theorem State.installMap_resets (f : Nat → Point) (s : State) : (s.installMap f).resets = s.resets := rfl

@[simp] theorem State.complete_ie (e : ErrCode) (s : State) : (s.complete e).ie = s.ie := rfl
@[simp] theorem State.complete_done (e : ErrCode) (s : State) : (s.complete e).done = true := rfl
@[simp] theorem State.complete_ovr (e : ErrCode) (s : State) : (s.complete e).ovr = s.ovr := rfl
@[simp] theorem State.complete_errCode (e : ErrCode) (s : State) : (s.complete e).errCode = e := rfl
@[simp] theorem State.complete_curveValid (e : ErrCode) (s : State) : (s.complete e).curveValid = s.curveValid := rfl
@[simp] theorem State.complete_cipherValid (e : ErrCode) (s : State) : (s.complete e).cipherValid = s.cipherValid := rfl
@[simp] theorem State.complete_mapValid (e : ErrCode) (s : State) : (s.complete e).mapValid = s.mapValid := rfl
@[simp] theorem State.complete_cmd (e : ErrCode) (s : State) : (s.complete e).cmd = s.cmd := rfl
@[simp] theorem State.complete_ops (e : ErrCode) (s : State) : (s.complete e).ops = s.ops := rfl
@[simp] theorem State.complete_res0 (e : ErrCode) (s : State) : (s.complete e).res0 = s.res0 := rfl
@[simp] theorem State.complete_res1 (e : ErrCode) (s : State) : (s.complete e).res1 = s.res1 := rfl
@[simp] theorem State.complete_res2 (e : ErrCode) (s : State) : (s.complete e).res2 = s.res2 := rfl
@[simp] theorem State.complete_res3 (e : ErrCode) (s : State) : (s.complete e).res3 = s.res3 := rfl
@[simp] theorem State.complete_curve (e : ErrCode) (s : State) : (s.complete e).curve = s.curve := rfl
@[simp] theorem State.complete_gen (e : ErrCode) (s : State) : (s.complete e).gen = s.gen := rfl
@[simp] theorem State.complete_orderN (e : ErrCode) (s : State) : (s.complete e).orderN = s.orderN := rfl
@[simp] theorem State.complete_mapcap (e : ErrCode) (s : State) : (s.complete e).mapcap = s.mapcap := rfl
@[simp] theorem State.complete_mapRam (e : ErrCode) (s : State) : (s.complete e).mapRam = s.mapRam := rfl
@[simp] theorem State.complete_pending (e : ErrCode) (s : State) : (s.complete e).pending = none := rfl
@[simp] theorem State.complete_snap (e : ErrCode) (s : State) : (s.complete e).snap = s.snap := rfl
@[simp] theorem State.complete_schedule (e : ErrCode) (s : State) : (s.complete e).schedule = s.schedule := rfl
@[simp] theorem State.complete_hostReads (e : ErrCode) (s : State) : (s.complete e).hostReads = s.hostReads := rfl
@[simp] theorem State.complete_resets (e : ErrCode) (s : State) : (s.complete e).resets = s.resets := rfl

@[simp] theorem accept_ie (w : Word) (s : State) : (accept w s).ie = s.ie := rfl
@[simp] theorem accept_done (w : Word) (s : State) : (accept w s).done = false := rfl
@[simp] theorem accept_ovr (w : Word) (s : State) : (accept w s).ovr = s.ovr := rfl
@[simp] theorem accept_errCode (w : Word) (s : State) : (accept w s).errCode = .noError := rfl
@[simp] theorem accept_curveValid (w : Word) (s : State) : (accept w s).curveValid = s.curveValid := rfl
@[simp] theorem accept_cipherValid (w : Word) (s : State) : (accept w s).cipherValid = s.cipherValid := rfl
@[simp] theorem accept_mapValid (w : Word) (s : State) : (accept w s).mapValid = s.mapValid := rfl
@[simp] theorem accept_cmd (w : Word) (s : State) : (accept w s).cmd = w := rfl
@[simp] theorem accept_ops (w : Word) (s : State) : (accept w s).ops = s.ops := rfl
@[simp] theorem accept_res0 (w : Word) (s : State) : (accept w s).res0 = s.res0 := rfl
@[simp] theorem accept_res1 (w : Word) (s : State) : (accept w s).res1 = s.res1 := rfl
@[simp] theorem accept_res2 (w : Word) (s : State) : (accept w s).res2 = s.res2 := rfl
@[simp] theorem accept_res3 (w : Word) (s : State) : (accept w s).res3 = s.res3 := rfl
@[simp] theorem accept_curve (w : Word) (s : State) : (accept w s).curve = s.curve := rfl
@[simp] theorem accept_gen (w : Word) (s : State) : (accept w s).gen = s.gen := rfl
@[simp] theorem accept_orderN (w : Word) (s : State) : (accept w s).orderN = s.orderN := rfl
@[simp] theorem accept_mapcap (w : Word) (s : State) : (accept w s).mapcap = s.mapcap := rfl
@[simp] theorem accept_mapRam (w : Word) (s : State) : (accept w s).mapRam = s.mapRam := rfl
@[simp] theorem accept_pending (w : Word) (s : State) : (accept w s).pending = some w := rfl
@[simp] theorem accept_snap (w : Word) (s : State) : (accept w s).snap = s.ops := rfl
@[simp] theorem accept_schedule (w : Word) (s : State) : (accept w s).schedule = s.schedule := rfl
@[simp] theorem accept_hostReads (w : Word) (s : State) : (accept w s).hostReads = s.hostReads := rfl
@[simp] theorem accept_resets (w : Word) (s : State) : (accept w s).resets = s.resets := rfl

@[simp] theorem writeStatus_ie (v : Word) (s : State) : (writeStatus v s).ie = s.ie := rfl
@[simp] theorem writeStatus_done (v : Word) (s : State) : (writeStatus v s).done = (s.done && !v.getLsbD 1) := rfl
@[simp] theorem writeStatus_ovr (v : Word) (s : State) : (writeStatus v s).ovr = (s.ovr && !v.getLsbD 2) := rfl
@[simp] theorem writeStatus_errCode (v : Word) (s : State) : (writeStatus v s).errCode = s.errCode := rfl
@[simp] theorem writeStatus_curveValid (v : Word) (s : State) : (writeStatus v s).curveValid = s.curveValid := rfl
@[simp] theorem writeStatus_cipherValid (v : Word) (s : State) : (writeStatus v s).cipherValid = s.cipherValid := rfl
@[simp] theorem writeStatus_mapValid (v : Word) (s : State) : (writeStatus v s).mapValid = s.mapValid := rfl
@[simp] theorem writeStatus_cmd (v : Word) (s : State) : (writeStatus v s).cmd = s.cmd := rfl
@[simp] theorem writeStatus_ops (v : Word) (s : State) : (writeStatus v s).ops = s.ops := rfl
@[simp] theorem writeStatus_res0 (v : Word) (s : State) : (writeStatus v s).res0 = s.res0 := rfl
@[simp] theorem writeStatus_res1 (v : Word) (s : State) : (writeStatus v s).res1 = s.res1 := rfl
@[simp] theorem writeStatus_res2 (v : Word) (s : State) : (writeStatus v s).res2 = s.res2 := rfl
@[simp] theorem writeStatus_res3 (v : Word) (s : State) : (writeStatus v s).res3 = s.res3 := rfl
@[simp] theorem writeStatus_curve (v : Word) (s : State) : (writeStatus v s).curve = s.curve := rfl
@[simp] theorem writeStatus_gen (v : Word) (s : State) : (writeStatus v s).gen = s.gen := rfl
@[simp] theorem writeStatus_orderN (v : Word) (s : State) : (writeStatus v s).orderN = s.orderN := rfl
@[simp] theorem writeStatus_mapcap (v : Word) (s : State) : (writeStatus v s).mapcap = s.mapcap := rfl
@[simp] theorem writeStatus_mapRam (v : Word) (s : State) : (writeStatus v s).mapRam = s.mapRam := rfl
@[simp] theorem writeStatus_pending (v : Word) (s : State) : (writeStatus v s).pending = s.pending := rfl
@[simp] theorem writeStatus_snap (v : Word) (s : State) : (writeStatus v s).snap = s.snap := rfl
@[simp] theorem writeStatus_schedule (v : Word) (s : State) : (writeStatus v s).schedule = s.schedule := rfl
@[simp] theorem writeStatus_hostReads (v : Word) (s : State) : (writeStatus v s).hostReads = s.hostReads := rfl
@[simp] theorem writeStatus_resets (v : Word) (s : State) : (writeStatus v s).resets = s.resets := rfl

@[simp] theorem writeCtrl_ie (v : Word) (s : State) : (writeCtrl v s).ie = v.getLsbD 0 := rfl
@[simp] theorem writeCtrl_done (v : Word) (s : State) : (writeCtrl v s).done = s.done := rfl
@[simp] theorem writeCtrl_ovr (v : Word) (s : State) : (writeCtrl v s).ovr = s.ovr := rfl
@[simp] theorem writeCtrl_errCode (v : Word) (s : State) : (writeCtrl v s).errCode = s.errCode := rfl
@[simp] theorem writeCtrl_curveValid (v : Word) (s : State) : (writeCtrl v s).curveValid = s.curveValid := rfl
@[simp] theorem writeCtrl_cipherValid (v : Word) (s : State) : (writeCtrl v s).cipherValid = s.cipherValid := rfl
@[simp] theorem writeCtrl_mapValid (v : Word) (s : State) : (writeCtrl v s).mapValid = s.mapValid := rfl
@[simp] theorem writeCtrl_cmd (v : Word) (s : State) : (writeCtrl v s).cmd = s.cmd := rfl
@[simp] theorem writeCtrl_ops (v : Word) (s : State) : (writeCtrl v s).ops = s.ops := rfl
@[simp] theorem writeCtrl_res0 (v : Word) (s : State) : (writeCtrl v s).res0 = s.res0 := rfl
@[simp] theorem writeCtrl_res1 (v : Word) (s : State) : (writeCtrl v s).res1 = s.res1 := rfl
@[simp] theorem writeCtrl_res2 (v : Word) (s : State) : (writeCtrl v s).res2 = s.res2 := rfl
@[simp] theorem writeCtrl_res3 (v : Word) (s : State) : (writeCtrl v s).res3 = s.res3 := rfl
@[simp] theorem writeCtrl_curve (v : Word) (s : State) : (writeCtrl v s).curve = s.curve := rfl
@[simp] theorem writeCtrl_gen (v : Word) (s : State) : (writeCtrl v s).gen = s.gen := rfl
@[simp] theorem writeCtrl_orderN (v : Word) (s : State) : (writeCtrl v s).orderN = s.orderN := rfl
@[simp] theorem writeCtrl_mapcap (v : Word) (s : State) : (writeCtrl v s).mapcap = s.mapcap := rfl
@[simp] theorem writeCtrl_mapRam (v : Word) (s : State) : (writeCtrl v s).mapRam = s.mapRam := rfl
@[simp] theorem writeCtrl_pending (v : Word) (s : State) : (writeCtrl v s).pending = s.pending := rfl
@[simp] theorem writeCtrl_snap (v : Word) (s : State) : (writeCtrl v s).snap = s.snap := rfl
@[simp] theorem writeCtrl_schedule (v : Word) (s : State) : (writeCtrl v s).schedule = s.schedule := rfl
@[simp] theorem writeCtrl_hostReads (v : Word) (s : State) : (writeCtrl v s).hostReads = s.hostReads := rfl
@[simp] theorem writeCtrl_resets (v : Word) (s : State) : (writeCtrl v s).resets = s.resets := rfl

@[simp] theorem resetInput_ie (s : State) : (resetInput s).ie = false := rfl
@[simp] theorem resetInput_done (s : State) : (resetInput s).done = false := rfl
@[simp] theorem resetInput_ovr (s : State) : (resetInput s).ovr = false := rfl
@[simp] theorem resetInput_errCode (s : State) : (resetInput s).errCode = .noError := rfl
@[simp] theorem resetInput_curveValid (s : State) : (resetInput s).curveValid = false := rfl
@[simp] theorem resetInput_cipherValid (s : State) : (resetInput s).cipherValid = false := rfl
@[simp] theorem resetInput_mapValid (s : State) : (resetInput s).mapValid = false := rfl
@[simp] theorem resetInput_cmd (s : State) : (resetInput s).cmd = 0#32 := rfl
@[simp] theorem resetInput_ops (s : State) : (resetInput s).ops = Operands.zero := rfl
@[simp] theorem resetInput_res0 (s : State) : (resetInput s).res0 = 0#32 := rfl
@[simp] theorem resetInput_res1 (s : State) : (resetInput s).res1 = 0#32 := rfl
@[simp] theorem resetInput_res2 (s : State) : (resetInput s).res2 = 0#32 := rfl
@[simp] theorem resetInput_res3 (s : State) : (resetInput s).res3 = 0#32 := rfl
@[simp] theorem resetInput_curve (s : State) : (resetInput s).curve = ⟨0#32, 0#32, 0#32⟩ := rfl
@[simp] theorem resetInput_gen (s : State) : (resetInput s).gen = ident := rfl
@[simp] theorem resetInput_orderN (s : State) : (resetInput s).orderN = 0#32 := rfl
@[simp] theorem resetInput_mapcap (s : State) : (resetInput s).mapcap = s.mapcap := rfl
@[simp] theorem resetInput_mapRam (s : State) : (resetInput s).mapRam = [] := rfl
@[simp] theorem resetInput_pending (s : State) : (resetInput s).pending = none := rfl
@[simp] theorem resetInput_snap (s : State) : (resetInput s).snap = Operands.zero := rfl
@[simp] theorem resetInput_schedule (s : State) : (resetInput s).schedule = s.schedule := rfl
@[simp] theorem resetInput_hostReads (s : State) : (resetInput s).hostReads = s.hostReads := rfl
@[simp] theorem resetInput_resets (s : State) : (resetInput s).resets = s.resets + 1 := rfl

end Sys2Proof.Machine
end

