-- ==== Sys2Proof/Laws/Ops.lean ====
section
/-! SUPPORT. The shared operations: what each can do, said once. -/

namespace Sys2Proof.Machine

@[simp] theorem succeed_eq_next {s t : State} : succeed s = .next t ↔ t = s.complete .noError := by
  simp [succeed, eq_comm]

@[simp] theorem raise_eq_next {e : ErrCode} {s t : State} : raise e s = .next t ↔ t = s.complete e := by
  simp [raise, eq_comm]

theorem needs_true {s : State} {body : Out} : needs true s body = body := rfl

theorem needs_false {s : State} {body : Out} : needs false s body = raise .notReady s := rfl

/-- The prologue either reports NOT_READY or leaves the answer to the body. -/
theorem needs_eq_next {f : Bool} {s t : State} {body : Out} :
    needs f s body = .next t ↔ (f = false ∧ t = s.complete .notReady) ∨ (f = true ∧ body = .next t) := by
  cases f <;> simp [needs]

/-- Completing after a result is written is completing with the result written: the two updates touch different fields. -/
theorem complete_complete (e e' : ErrCode) (s : State) : (s.complete e).complete e' = s.complete e' := rfl

/-- A host write to CMD, in both cases (`44_command_control.md` R260, R262). -/
theorem writeCmd_cases (w : Word) (s : State) :
    (s.pending = none ∧ writeCmd w s = accept w s) ∨
      (∃ v, s.pending = some v ∧ writeCmd w s = { s with ovr := true }) := by
  unfold writeCmd
  cases h : s.pending with
  | none => exact .inl ⟨rfl, rfl⟩
  | some v => exact .inr ⟨v, rfl, rfl⟩

/-- Everything a host write to a register can do. -/
theorem busWrite_cases (off : BitVec 8) (v : Word) (s : State) :
    busWrite off v s = s ∨ busWrite off v s = writeCtrl v s ∨ busWrite off v s = writeStatus v s
      ∨ busWrite off v s = writeCmd v s ∨ ∃ o, busWrite off v s = { s with ops := o } := by
  unfold busWrite
  cases h : regAt off with
  | none => exact .inl rfl
  | some r =>
    cases r
    case ctrl => exact .inr (.inl rfl)
    case status => exact .inr (.inr (.inl rfl))
    case cmd => exact .inr (.inr (.inr (.inl rfl)))
    case op0 => exact .inr (.inr (.inr (.inr ⟨_, rfl⟩)))
    case op1 => exact .inr (.inr (.inr (.inr ⟨_, rfl⟩)))
    case op2 => exact .inr (.inr (.inr (.inr ⟨_, rfl⟩)))
    case op3 => exact .inr (.inr (.inr (.inr ⟨_, rfl⟩)))
    case op4 => exact .inr (.inr (.inr (.inr ⟨_, rfl⟩)))
    all_goals exact .inl rfl

/-- Everything an admitted host access can do; any other access is refused. -/
theorem hostAccess_eq_next {a : Access} {s t : State} :
    hostAccess a s = .next t ↔ a.admitted = true ∧
      ((a.write = none ∧ t = { s with hostReads := (a.offset, busRead a.offset s) :: s.hostReads }) ∨
        ∃ v, a.write = some v ∧ t = busWrite a.offset v s) := by
  unfold hostAccess
  cases ha : a.admitted with
  | false => simp
  | true => cases hw : a.write <;> simp [eq_comm]

end Sys2Proof.Machine
end

