-- ==== Sys2Proof/Laws/Exec.lean ====
section
/-! SUPPORT. What the completion of a command can do, said once: it either reports an error and writes nothing, or makes the writes
of its rule. Frames and invariants follow from this one case split. -/

namespace Sys2Proof.Machine

/-- The writes of a successful command (`30_encoding.md` R95): `u` is `s` with them made, before the completion itself. -/
def Writes (i : Instr) (s u : State) : Prop :=
  match i with
  | .nop => u = s
  | .inv | .isValid | .order | .decodePoint => ∃ v, u = s.setRes0 v
  | .sqrt | .neg | .add | .dbl | .smul | .keygen | .decrypt | .encodeSymbol => ∃ v w, u = s.setRes01 v w
  | .atX | .encrypt => ∃ v w x y, u = (s.setRes01 v w).setRes23 x y
  | .curveLoad => curveOk s.opCurve = true ∧ u = s.installCurve s.opCurve
  | .cipherLoad => s.curveValid = true ∧ ∃ n, valid s.curve s.opPoint01 = true ∧ s.opPoint01 ≠ ident ∧
      ecOrder s.curve s.opPoint01 = some n ∧ u = (s.installCipher s.opPoint01 (toWord n)).setRes0 (toWord n)
  | .mapBuild => s.cipherValid = true ∧ s.orderN.toNat ≤ s.mapDepth ∧ u = s.installMap (mapping s)

/-- A completion either raises an error of the command, from the state before any write, or succeeds with the command's writes. -/
theorem exec_next_cases {i : Instr} {s t : State} (h : exec i s = .next t) :
    (∃ e ∈ raises i, t = s.complete e) ∨ ∃ u, Writes i s u ∧ t = u.complete .noError := by
  cases i <;> simp only [exec, Writes, raises] at h ⊢
  case nop => exact .inr ⟨s, rfl, succeed_eq_next.mp h⟩
  case inv =>
    unfold execInv at h
    split at h
    · exact .inl ⟨_, by simp, raise_eq_next.mp h⟩
    · exact .inr ⟨_, ⟨_, rfl⟩, succeed_eq_next.mp h⟩
  case sqrt =>
    simp only [execSqrt] at h
    split at h
    · exact .inl ⟨_, by simp, raise_eq_next.mp h⟩
    · split at h
      · exact .inl ⟨_, by simp, raise_eq_next.mp h⟩
      · exact .inr ⟨_, ⟨_, _, rfl⟩, succeed_eq_next.mp h⟩
  case curveLoad =>
    unfold execCurveLoad at h
    split at h
    case isTrue hc => exact .inr ⟨_, ⟨hc, rfl⟩, succeed_eq_next.mp h⟩
    case isFalse => exact .inl ⟨_, by simp, raise_eq_next.mp h⟩
  case atX =>
    obtain ⟨-, rfl⟩ | ⟨-, h⟩ := needs_eq_next.mp h
    · exact .inl ⟨_, by simp, rfl⟩
    · split at h
      · exact .inl ⟨_, by simp, raise_eq_next.mp h⟩
      · split at h
        · exact .inl ⟨_, by simp, raise_eq_next.mp h⟩
        · exact .inr ⟨_, ⟨_, _, _, _, rfl⟩, succeed_eq_next.mp h⟩
  case isValid =>
    obtain ⟨-, rfl⟩ | ⟨-, h⟩ := needs_eq_next.mp h
    · exact .inl ⟨_, by simp, rfl⟩
    · exact .inr ⟨_, ⟨_, rfl⟩, succeed_eq_next.mp h⟩
  case keygen =>
    obtain ⟨-, rfl⟩ | ⟨-, h⟩ := needs_eq_next.mp h
    · exact .inl ⟨_, by simp, rfl⟩
    · exact .inr ⟨_, ⟨_, _, rfl⟩, succeed_eq_next.mp h⟩
  case neg | add | dbl | smul =>
    obtain ⟨-, rfl⟩ | ⟨-, h⟩ := needs_eq_next.mp h
    · exact .inl ⟨_, by simp, rfl⟩
    · split at h
      · exact .inr ⟨_, ⟨_, _, rfl⟩, succeed_eq_next.mp h⟩
      · exact .inl ⟨_, by simp, raise_eq_next.mp h⟩
  case order =>
    obtain ⟨-, rfl⟩ | ⟨-, h⟩ := needs_eq_next.mp h
    · exact .inl ⟨_, by simp, rfl⟩
    · split at h
      · split at h
        · exact .inl ⟨_, by simp, raise_eq_next.mp h⟩
        · exact .inr ⟨_, ⟨_, rfl⟩, succeed_eq_next.mp h⟩
      · exact .inl ⟨_, by simp, raise_eq_next.mp h⟩
  case cipherLoad =>
    obtain ⟨-, rfl⟩ | ⟨hv, h⟩ := needs_eq_next.mp h
    · exact .inl ⟨_, by simp, rfl⟩
    · split at h
      case isFalse => exact .inl ⟨_, by simp, raise_eq_next.mp h⟩
      case isTrue hg =>
        simp only [Bool.and_eq_true, bne_iff_ne, ne_eq] at hg
        split at h
        case h_1 => exact .inl ⟨_, by simp, raise_eq_next.mp h⟩
        case h_2 n hn => exact .inr ⟨_, ⟨hv, n, hg.1, hg.2, hn, rfl⟩, succeed_eq_next.mp h⟩
  case encrypt =>
    obtain ⟨-, rfl⟩ | ⟨-, h⟩ := needs_eq_next.mp h
    · exact .inl ⟨_, by simp, rfl⟩
    · split at h
      · split at h
        · exact .inr ⟨_, ⟨_, _, _, _, rfl⟩, succeed_eq_next.mp h⟩
        · exact .inl ⟨_, by simp, raise_eq_next.mp h⟩
      · exact .inl ⟨_, by simp, raise_eq_next.mp h⟩
  case decrypt =>
    obtain ⟨-, rfl⟩ | ⟨-, h⟩ := needs_eq_next.mp h
    · exact .inl ⟨_, by simp, rfl⟩
    · split at h
      · split at h
        · exact .inr ⟨_, ⟨_, _, rfl⟩, succeed_eq_next.mp h⟩
        · exact .inl ⟨_, by simp, raise_eq_next.mp h⟩
      · exact .inl ⟨_, by simp, raise_eq_next.mp h⟩
  case mapBuild =>
    obtain ⟨-, rfl⟩ | ⟨hv, h⟩ := needs_eq_next.mp h
    · exact .inl ⟨_, by simp, rfl⟩
    · split at h
      case isTrue => exact .inl ⟨_, by simp, raise_eq_next.mp h⟩
      case isFalse hn => exact .inr ⟨_, ⟨hv, not_lt.mp hn, rfl⟩, succeed_eq_next.mp h⟩
  case encodeSymbol =>
    obtain ⟨-, rfl⟩ | ⟨-, h⟩ := needs_eq_next.mp h
    · exact .inl ⟨_, by simp, rfl⟩
    · split at h
      · exact .inl ⟨_, by simp, raise_eq_next.mp h⟩
      · split at h
        · cases h
        · exact .inr ⟨_, ⟨_, _, rfl⟩, succeed_eq_next.mp h⟩
  case decodePoint =>
    obtain ⟨-, rfl⟩ | ⟨-, h⟩ := needs_eq_next.mp h
    · exact .inl ⟨_, by simp, rfl⟩
    · split at h
      · exact .inr ⟨_, ⟨_, rfl⟩, succeed_eq_next.mp h⟩
      · split at h
        · cases h
        · exact .inl ⟨_, by simp, raise_eq_next.mp h⟩

/-- No command is ever refused, and only ENCODE and DECODE can fault, where N is above MAP_DEPTH. -/
theorem exec_total (i : Instr) (s : State) :
    (∃ t, exec i s = .next t) ∨ (exec i s = .fault .mapEntryAbsent ∧ s.mapValid = true ∧ s.mapDepth < s.orderN.toNat) := by
  cases i <;> simp only [exec, execNop, execInv, execSqrt, execCurveLoad, execAtX, execIsValid, execNeg, execAdd, execDbl,
    execSmul, execOrder, execCipherLoad, execKeygen, execEncrypt, execDecrypt, execMapBuild, execEncodeSymbol,
    execDecodePoint, needs, succeed, raise] <;>
  repeat' split
  all_goals first
    | exact .inl ⟨_, rfl⟩
    | (refine .inr ⟨rfl, by assumption, ?_⟩; omega)

/-- A completed word: an illegal word reports ILLEGAL_COMMAND, a legal one is its command. -/
theorem completeWord_eq {w : Word} {s : State} :
    (∃ i, decode w = .ok i ∧ completeWord w s = exec i s)
      ∨ ((∀ i, decode w ≠ .ok i) ∧ completeWord w s = .next (s.complete .illegalCommand)) := by
  unfold completeWord
  cases h : decode w with
  | ok i => exact .inl ⟨i, rfl, rfl⟩
  | error x => exact .inr ⟨by simp, rfl⟩

/-- One step, by what the schedule says moves next. -/
theorem step_cases (s : State) :
    (s.schedule = [] ∧ step s = engineTurn s)
      ∨ (∃ rest, s.schedule = .engine :: rest ∧ step s = engineTurn { s with schedule := rest })
      ∨ (∃ a rest, s.schedule = .access a :: rest ∧ step s = hostAccess a { s with schedule := rest })
      ∨ ∃ rest, s.schedule = .reset :: rest ∧ step s = .next (resetInput { s with schedule := rest }) := by
  unfold step
  split
  case h_1 h => exact .inl ⟨h, rfl⟩
  case h_2 e rest h =>
    cases e with
    | engine => exact .inr (.inl ⟨rest, h, rfl⟩)
    | access a => exact .inr (.inr (.inl ⟨a, rest, h, rfl⟩))
    | reset => exact .inr (.inr (.inr ⟨rest, h, rfl⟩))

/-- A turn of the engine: idle, it changes nothing; busy, it completes the pending word. -/
theorem engineTurn_cases (s : State) :
    (s.pending = none ∧ engineTurn s = .next s) ∨ ∃ w, s.pending = some w ∧ engineTurn s = completeWord w s := by
  unfold engineTurn fetch
  cases h : s.pending with
  | none => exact .inl ⟨rfl, rfl⟩
  | some w => exact .inr ⟨w, rfl, rfl⟩

/-- An admitted write acts on the register window. -/
theorem step_wordWrite {s : State} {off : BitVec 8} {v : Word} {rest : List Event} (ho : off.toNat % 4 = 0)
    (h : s.schedule = wordWrite off v :: rest) : step s = .next (busWrite off v { s with schedule := rest }) := by
  simp [step, h, perform, wordWrite, hostAccess, Access.admitted, ho]

/-- An admitted read gives the host the register's value. -/
theorem step_wordRead {s : State} {off : BitVec 8} {rest : List Event} (ho : off.toNat % 4 = 0)
    (h : s.schedule = wordRead off :: rest) :
    step s = .next { s with schedule := rest, hostReads := (off, busRead off { s with schedule := rest }) :: s.hostReads } := by
  simp [step, h, perform, wordRead, hostAccess, Access.admitted, ho]

/-- What a read returns does not depend on what is still scheduled. -/
theorem busRead_schedule (off : BitVec 8) (s : State) (es : List Event) :
    busRead off { s with schedule := es } = busRead off s := by
  unfold busRead
  cases regAt off with
  | none => rfl
  | some r => cases r <;> rfl

/-- A run of one step. -/
theorem run_one {s t : State} (h : step s = .next t) : Host.Core.run Sys2Proof.core 1 s = .next t := by
  simp only [Host.Core.run, Sys2Proof.core, h]

/-- A run goes on from where a shorter one ended. -/
theorem run_add {m n : Nat} {s t : State} (h : Host.Core.run Sys2Proof.core m s = .next t) :
    Host.Core.run Sys2Proof.core (m + n) s = Host.Core.run Sys2Proof.core n t := by
  induction m generalizing s with
  | zero => cases h; rw [Nat.zero_add]
  | succ m ih =>
    rw [Nat.succ_add]
    simp only [Host.Core.run, Sys2Proof.core] at h ⊢
    cases hs : step s with
    | next u => rw [hs] at h; exact ih h
    | fault r => rw [hs] at h; cases h
    | refused r => rw [hs] at h; cases h

end Sys2Proof.Machine
end

