-- ==== Sys2Proof/Laws/Frame.lean ====
section
/-! SUPPORT. What a completion does not depend on (`44_command_control.md` R261, R263): CTRL, OVR, CMD, OP0 to OP4 and the model's own
schedule and read log pass through every command unread and unchanged. -/

namespace Sys2Proof.Machine

/-- An answer with its next state changed by `g`. -/
def mapNext (g : State → State) (o : Out) : Out :=
  match o with
  | .next t => .next (g t)
  | .fault r => .fault r
  | .refused r => .refused r

@[simp] theorem mapNext_next (g : State → State) (t : State) : mapNext g (.next t) = .next (g t) := rfl

/-- `s` with everything that no command reads taken from `f`. -/
def State.withFrameOf (f s : State) : State :=
  { s with ie := f.ie, ovr := f.ovr, cmd := f.cmd, ops := f.ops, schedule := f.schedule, hostReads := f.hostReads }

theorem State.withFrameOf_self (s : State) : s.withFrameOf s = s := rfl

/-- Every command acts on the rest of the state alone, and leaves the frame as it finds it. -/
theorem exec_withFrameOf (i : Instr) (f s : State) : exec i (f.withFrameOf s) = mapNext f.withFrameOf (exec i s) := by
  cases i <;> simp only [exec]
  case nop => rfl
  case inv =>
    change (match invSearch s.opValue s.opModulus with
      | none => raise .noInverse (f.withFrameOf s)
      | some t => succeed ((f.withFrameOf s).setRes0 (toWord t))) = _
    unfold execInv
    cases invSearch s.opValue s.opModulus <;> rfl
  case sqrt =>
    unfold execSqrt
    change (if s.opModulus ≤ s.opValue then raise .operandRange (f.withFrameOf s) else
      match sqrtSearch s.opValue s.opModulus with
      | none => raise .noSquareRoot (f.withFrameOf s)
      | some t => succeed ((f.withFrameOf s).setRes01 (toWord t) (toWord (s.opModulus - t)))) =
        mapNext _ (if s.opModulus ≤ s.opValue then _ else _)
    by_cases h : s.opModulus ≤ s.opValue
    · rw [if_pos h, if_pos h]; rfl
    · rw [if_neg h, if_neg h]
      cases sqrtSearch s.opValue s.opModulus <;> rfl
  case curveLoad =>
    unfold execCurveLoad
    change (if curveOk s.opCurve then _ else _) = _
    split_ifs <;> rfl
  case atX =>
    unfold execAtX needs
    change (if s.curveValid then if s.curve.q.toNat ≤ s.opX then raise .operandRange (f.withFrameOf s) else
      match sqrtSearch (rhs s.curve s.opX) s.curve.q.toNat with
      | none => raise .noPointAtX (f.withFrameOf s)
      | some t => succeed (((f.withFrameOf s).setRes01 (toWord s.opX) (toWord t)).setRes23 (toWord s.opX)
          (toWord (s.curve.q.toNat - t)))
      else raise .notReady (f.withFrameOf s)) = _
    split_ifs
    · rfl
    · cases sqrtSearch (rhs s.curve s.opX) s.curve.q.toNat <;> rfl
    · rfl
  case isValid =>
    unfold execIsValid needs
    change (if s.curveValid then succeed ((f.withFrameOf s).setRes0 (if valid s.curve s.opPoint01 then 1#32 else 0#32))
      else raise .notReady (f.withFrameOf s)) = _
    split_ifs <;> rfl
  case neg =>
    unfold execNeg needs
    change (if s.curveValid then if inField s.curve s.opPoint01 then _ else _ else _) = _
    split_ifs <;> rfl
  case add =>
    unfold execAdd needs
    change (if s.curveValid then if inField s.curve s.opPoint01 && inField s.curve s.opPoint23 then _ else _ else _) = _
    split_ifs <;> rfl
  case dbl =>
    unfold execDbl needs
    change (if s.curveValid then if inField s.curve s.opPoint01 then _ else _ else _) = _
    split_ifs <;> rfl
  case smul =>
    unfold execSmul needs
    change (if s.curveValid then if inField s.curve s.opPoint01 then _ else _ else _) = _
    split_ifs <;> rfl
  case order =>
    unfold execOrder needs
    change (if s.curveValid then if valid s.curve s.opPoint01 && s.opPoint01 != ident then
      match ecOrder s.curve s.opPoint01 with
      | none => raise .orderNotFound (f.withFrameOf s)
      | some n => succeed ((f.withFrameOf s).setRes0 (toWord n))
      else raise .invalidPoint (f.withFrameOf s) else raise .notReady (f.withFrameOf s)) = _
    split_ifs
    · cases ecOrder s.curve s.opPoint01 <;> rfl
    · rfl
    · rfl
  case cipherLoad =>
    unfold execCipherLoad needs
    change (if s.curveValid then if valid s.curve s.opPoint01 && s.opPoint01 != ident then
      match ecOrder s.curve s.opPoint01 with
      | none => raise .orderNotFound (f.withFrameOf s)
      | some n => succeed (((f.withFrameOf s).installCipher s.opPoint01 (toWord n)).setRes0 (toWord n))
      else raise .invalidGenerator (f.withFrameOf s) else raise .notReady (f.withFrameOf s)) = _
    split_ifs
    · cases ecOrder s.curve s.opPoint01 <;> rfl
    · rfl
    · rfl
  case keygen =>
    unfold execKeygen needs
    change (if s.cipherValid then _ else _) = _
    split_ifs <;> rfl
  case encrypt =>
    unfold execEncrypt needs
    change (if s.cipherValid then if valid s.curve s.opPoint01 then if valid s.curve s.opPoint23 then _ else _ else _
      else _) = _
    split_ifs <;> rfl
  case decrypt =>
    unfold execDecrypt needs
    change (if s.cipherValid then if valid s.curve s.opPoint01 then if valid s.curve s.opPoint23 then _ else _ else _
      else _) = _
    split_ifs <;> rfl
  case mapBuild =>
    unfold execMapBuild needs
    change (if s.cipherValid then if s.mapDepth < s.orderN.toNat then _ else _ else _) = _
    split_ifs <;> rfl
  case encodeSymbol =>
    unfold execEncodeSymbol needs
    change (if s.mapValid then if s.orderN.toNat ≤ s.opSymbol then _ else if s.mapDepth ≤ s.opSymbol then _ else _ else _) = _
    split_ifs <;> rfl
  case decodePoint =>
    unfold execDecodePoint needs
    change (if s.mapValid then
      match least 0 (min s.orderN.toNat s.mapDepth) (fun i => decide (mapRead s i = s.opPoint01)) with
      | some t => succeed ((f.withFrameOf s).setRes0 (toWord t))
      | none => if s.mapDepth < s.orderN.toNat then .fault .mapEntryAbsent else raise .unknownPoint (f.withFrameOf s)
      else raise .notReady (f.withFrameOf s)) = _
    split_ifs with h1 h2
    · cases least 0 (min s.orderN.toNat s.mapDepth) (fun i => decide (mapRead s i = s.opPoint01)) <;> rfl
    · cases least 0 (min s.orderN.toNat s.mapDepth) (fun i => decide (mapRead s i = s.opPoint01)) <;> rfl
    · rfl

/-- The same of a completed word, legal or not. -/
theorem completeWord_withFrameOf (w : Word) (f s : State) :
    completeWord w (f.withFrameOf s) = mapNext f.withFrameOf (completeWord w s) := by
  unfold completeWord
  cases decode w with
  | ok i => exact exec_withFrameOf i f s
  | error x => rfl

end Sys2Proof.Machine
end

