-- ==== Sys2Proof/Laws/Group.lean ====
section
/-! SUPPORT. The bridge from the engine's points to Mathlib's group of points of a Weierstrass curve over `ZMod Q`: `ecAdd`, `ecNeg`
and `ecSmul` on valid points are addition, negation and multiples there (`41_curve_group.md` R147, R149, R153). -/

namespace Sys2Proof.Machine

/-! ### Residues -/

theorem cast_mod {q : Nat} (hq : 0 < q) (v : Int) : ((mod v q : Nat) : ZMod q) = (v : ZMod q) := by
  have h : (((mod v q : Nat) : Int) : ZMod q) = ((v % (q : Int) : Int) : ZMod q) := by rw [mod_pos hq]
  rw [ZMod.intCast_mod] at h
  exact_mod_cast h

theorem cast_inj {q a b : Nat} (ha : a < q) (hb : b < q) : (a : ZMod q) = (b : ZMod q) ↔ a = b := by
  rw [ZMod.natCast_eq_natCast_iff', Nat.mod_eq_of_lt ha, Nat.mod_eq_of_lt hb]

/-- The inverse of a slope exists modulo a prime and is the field's (R150 item 1). -/
theorem invSearch_prime {v q : Nat} (hq : Nat.Prime q) (hv : v % q ≠ 0) :
    ∃ t, invSearch v q = some t ∧ t < q ∧ (v : ZMod q) * (t : ZMod q) = 1 := by
  cases h : invSearch v q with
  | some t =>
    obtain ⟨h1, h2, -⟩ := invSearch_eq_some.mp h
    refine ⟨t, rfl, h1, ?_⟩
    have h3 : ((v * t : Nat) : ZMod q) = ((1 : Nat) : ZMod q) := by
      rw [ZMod.natCast_eq_natCast_iff', h2, Nat.mod_eq_of_lt hq.one_lt]
    exact_mod_cast h3
  | none =>
    exfalso
    have := Fact.mk hq
    have h0 : (v : ZMod q) ≠ 0 := fun h0 =>
      hv (Nat.mod_eq_zero_of_dvd ((ZMod.natCast_eq_zero_iff v q).mp h0))
    refine invSearch_eq_none.mp h ((v : ZMod q)⁻¹).val (ZMod.val_lt _) ?_
    have h3 : ((v * ((v : ZMod q)⁻¹).val : Nat) : ZMod q) = ((1 : Nat) : ZMod q) := by
      push_cast
      rw [ZMod.natCast_zmod_val, mul_inv_cancel₀ h0]
    rw [ZMod.natCast_eq_natCast_iff', Nat.mod_eq_of_lt hq.one_lt] at h3
    exact h3

/-! ### The curve over the field -/

/-- The curve `y² = x³ + a·x + b` over `ZMod q`. -/
def Curve.weier (c : Curve) : WeierstrassCurve.Affine (ZMod c.q.toNat) :=
  { a₁ := 0, a₂ := 0, a₃ := 0, a₄ := (c.a.toNat : ZMod c.q.toNat), a₆ := (c.b.toNat : ZMod c.q.toNat) }

theorem weier_equation {c : Curve} {x y : ZMod c.q.toNat} :
    c.weier.Equation x y ↔ y ^ 2 = x ^ 3 + (c.a.toNat : ZMod c.q.toNat) * x + (c.b.toNat : ZMod c.q.toNat) := by
  rw [WeierstrassCurve.Affine.equation_iff]
  simp [Curve.weier]

/-- The discriminant check of R141 is that the curve has no singular point. -/
theorem weier_nonsingular {c : Curve} (hc : CurveSound c) {x y : ZMod c.q.toNat} (h : c.weier.Equation x y) :
    c.weier.Nonsingular x y := by
  have := Fact.mk hc.q_prime
  refine (WeierstrassCurve.Affine.equation_iff_nonsingular_of_Δ_ne_zero ?_).mp h
  have h2 : (2 : ZMod c.q.toNat) ≠ 0 := by
    intro h2
    have h3 := (ZMod.natCast_eq_zero_iff 2 c.q.toNat).mp (by exact_mod_cast h2)
    exact absurd (Nat.le_of_dvd (by norm_num) h3) (by have := hc.q_gt_two; omega)
  have h4 : (4 * (c.a.toNat : ZMod c.q.toNat) ^ 3 + 27 * (c.b.toNat : ZMod c.q.toNat) ^ 2) ≠ 0 := by
    intro h4
    refine hc.nonsingular (Nat.mod_eq_zero_of_dvd ((ZMod.natCast_eq_zero_iff _ _).mp ?_))
    exact_mod_cast h4
  have h5 : c.weier.Δ = -(2 ^ 4 * (4 * (c.a.toNat : ZMod c.q.toNat) ^ 3 + 27 * (c.b.toNat : ZMod c.q.toNat) ^ 2)) := by
    simp only [WeierstrassCurve.Δ, WeierstrassCurve.b₂, WeierstrassCurve.b₄, WeierstrassCurve.b₆, WeierstrassCurve.b₈,
      Curve.weier]
    ring
  rw [h5]
  exact neg_ne_zero.mpr (mul_ne_zero (pow_ne_zero _ h2) h4)

/-- The residue of a register value. -/
def Curve.cast (c : Curve) (w : Word) : ZMod c.q.toNat := (w.toNat : ZMod c.q.toNat)

/-- `p` stands for the point `P` of the group: IDENT for the neutral element, any other point for the affine point with its
coordinates. -/
def Rep (c : Curve) (p : Point) (P : c.weier.Point) : Prop :=
  (p = ident ∧ P = .zero) ∨ (p ≠ ident ∧ inField c p = true ∧ ∃ h, P = .some (c.cast p.x) (c.cast p.y) h)

theorem valid_equation {c : Curve} {p : Point} (h1 : inField c p = true) (hp : p ≠ ident) :
    valid c p = true ↔ c.weier.Equation (c.cast p.x) (c.cast p.y) := by
  have h2 := inField_iff.mp h1
  rw [valid_iff, weier_equation]
  simp only [h2.1, h2.2, true_and, hp, false_or, Curve.cast]
  have h3 := ZMod.natCast_eq_natCast_iff' (p.y.toNat ^ 2) (p.x.toNat ^ 3 + c.a.toNat * p.x.toNat + c.b.toNat) c.q.toNat
  push_cast at h3
  exact h3.symm

theorem valid_inField {c : Curve} {p : Point} (h : valid c p = true) : inField c p = true :=
  inField_iff.mpr ⟨(valid_iff.mp h).1, (valid_iff.mp h).2.1⟩

theorem ident_valid {c : Curve} (hq : 0 < c.q.toNat) : valid c ident = true :=
  valid_iff.mpr ⟨hq, hq, .inl rfl⟩

theorem Rep.valid {c : Curve} (hc : CurveSound c) {p : Point} {P : c.weier.Point} (h : Rep c p P) : valid c p = true := by
  have hq := hc.q_gt_two
  obtain ⟨rfl, -⟩ | ⟨h1, h2, h3, -⟩ := h
  · exact ident_valid (by omega)
  · exact (valid_equation h2 h1).mpr h3.1

/-- Every valid point stands for one point of the group. -/
theorem exists_rep {c : Curve} (hc : CurveSound c) {p : Point} (h : valid c p = true) : ∃ P, Rep c p P := by
  by_cases hp : p = ident
  · exact ⟨.zero, .inl ⟨hp, rfl⟩⟩
  · have h1 := valid_inField h
    exact ⟨_, .inr ⟨hp, h1, weier_nonsingular hc ((valid_equation h1 hp).mp h), rfl⟩⟩

theorem cast_inj_word {c : Curve} {v w : Word} (hv : v.toNat < c.q.toNat) (hw : w.toNat < c.q.toNat) :
    c.cast v = c.cast w ↔ v = w := by
  rw [Curve.cast, Curve.cast, cast_inj hv hw, BitVec.toNat_inj]

/-- Different points stand for different points of the group. -/
theorem Rep.inj {c : Curve} {p p' : Point} {P : c.weier.Point} (h : Rep c p P) (h' : Rep c p' P) : p = p' := by
  obtain ⟨rfl, rfl⟩ | ⟨-, h2, h3, rfl⟩ := h
  · obtain ⟨rfl, -⟩ | ⟨-, -, _, h4⟩ := h'
    · rfl
    · cases h4
  · obtain ⟨-, h4⟩ | ⟨-, h5, h6, h7⟩ := h'
    · cases h4
    · simp only [WeierstrassCurve.Affine.Point.some.injEq] at h7
      rw [inField_iff] at h2 h5
      have hx := (cast_inj_word h2.1 h5.1).mp h7.1
      have hy := (cast_inj_word h2.2 h5.2).mp h7.2
      cases p; cases p'
      simp_all

theorem Rep.uniq {c : Curve} {p : Point} {P P' : c.weier.Point} (h : Rep c p P) (h' : Rep c p P') : P = P' := by
  obtain ⟨rfl, rfl⟩ | ⟨h1, -, h3, rfl⟩ := h
  · obtain ⟨-, rfl⟩ | ⟨h4, -⟩ := h'
    · rfl
    · exact absurd rfl h4
  · obtain ⟨h4, -⟩ | ⟨-, -, h6, rfl⟩ := h'
    · exact absurd h4 h1
    · rfl

/-! ### The operations -/

theorem cast_toWord_mod {c : Curve} (hq : 0 < c.q.toNat) (v : Int) :
    c.cast (toWord (mod v c.q.toNat)) = (v : ZMod c.q.toNat) := by
  rw [Curve.cast, toWord_mod_toNat hq, cast_mod hq]

/-- (0, 0) is not on a sound curve (R141, corner case `b != 0`). -/
theorem ident_not_on_curve {c : Curve} (hc : CurveSound c) {p : Point} (h1 : inField c p = true)
    (h : c.weier.Equation (c.cast p.x) (c.cast p.y)) : p ≠ ident := by
  rintro rfl
  rw [weier_equation] at h
  simp only [Curve.cast, ident] at h
  have h2 : ((c.b.toNat : Nat) : ZMod c.q.toNat) = ((0 : Nat) : ZMod c.q.toNat) := by simpa using h.symm
  have := (cast_inj hc.b_lt (by have := hc.q_gt_two; omega)).mp h2
  have := hc.b_pos
  omega

/-- The slope inverse, as the field's. -/
theorem slopeInverse_mul {c : Curve} (hc : CurveSound c) {v : Int} (hv : (v : ZMod c.q.toNat) ≠ 0) :
    (v : ZMod c.q.toNat) * (slopeInverse c (mod v c.q.toNat) : ZMod c.q.toNat) = 1 := by
  have hq : 0 < c.q.toNat := by have := hc.q_gt_two; omega
  have h1 : mod v c.q.toNat % c.q.toNat ≠ 0 := by
    rw [Nat.mod_eq_of_lt (mod_lt hq v)]
    intro h0
    exact hv (by rw [← cast_mod hq, h0, Nat.cast_zero])
  obtain ⟨t, ht, -, h2⟩ := invSearch_prime hc.q_prime h1
  rw [cast_mod hq] at h2
  rw [slopeInverse, ht]
  exact h2

theorem rep_neg {c : Curve} (hc : CurveSound c) {p : Point} {P : c.weier.Point} (h : Rep c p P) :
    Rep c (ecNeg c p) (-P) := by
  have hq : 0 < c.q.toNat := by have := hc.q_gt_two; omega
  obtain ⟨rfl, rfl⟩ | ⟨h1, h2, h3, rfl⟩ := h
  · refine .inl ⟨?_, rfl⟩
    have : mod 0 c.q.toNat = 0 := (mod_eq_zero_iff hq 0).mpr (dvd_zero _)
    simp [ecNeg, ident, this, toWord]
  · have hy : c.cast (ecNeg c p).y = c.weier.negY (c.cast p.x) (c.cast p.y) := by
      simp only [ecNeg, cast_toWord_mod hq, WeierstrassCurve.Affine.negY, Curve.weier]
      simp only [Curve.cast]
      push_cast; ring
    have hx : c.cast (ecNeg c p).x = c.cast p.x := rfl
    have hf : inField c (ecNeg c p) = true := by
      rw [inField_iff] at h2 ⊢
      exact ⟨h2.1, by simp only [ecNeg, toWord_mod_toNat hq]; exact mod_lt hq _⟩
    have h4 : c.weier.Nonsingular (c.cast (ecNeg c p).x) (c.cast (ecNeg c p).y) := by
      rw [hy, hx]; exact (WeierstrassCurve.Affine.nonsingular_neg ..).mpr h3
    refine .inr ⟨ident_not_on_curve hc hf h4.1, hf, h4, ?_⟩
    rw [WeierstrassCurve.Affine.Point.neg_some]
    simp only [hx, hy]

/-- The last two cases of R149: where the slope is the group law's, the chord point stands for the sum. -/
theorem rep_chord {c : Curve} (hc : CurveSound c) {p1 p2 : Point} {l : Nat}
    (h1 : c.weier.Nonsingular (c.cast p1.x) (c.cast p1.y)) (h2 : c.weier.Nonsingular (c.cast p2.x) (c.cast p2.y))
    (hxy : letI := Fact.mk hc.q_prime
      ¬ (c.cast p1.x = c.cast p2.x ∧ c.cast p1.y = c.weier.negY (c.cast p2.x) (c.cast p2.y)))
    (hl : letI := Fact.mk hc.q_prime
      (l : ZMod c.q.toNat) = c.weier.slope (c.cast p1.x) (c.cast p2.x) (c.cast p1.y) (c.cast p2.y)) :
    letI := Fact.mk hc.q_prime
    Rep c (chordPoint c l p1.x.toNat p1.y.toNat p2.x.toNat)
      (WeierstrassCurve.Affine.Point.some _ _ h1 + WeierstrassCurve.Affine.Point.some _ _ h2) := by
  have := Fact.mk hc.q_prime
  have hq : 0 < c.q.toNat := by have := hc.q_gt_two; omega
  have hx : c.cast (chordPoint c l p1.x.toNat p1.y.toNat p2.x.toNat).x =
      c.weier.addX (c.cast p1.x) (c.cast p2.x) (l : ZMod c.q.toNat) := by
    simp only [chordPoint, cast_toWord_mod hq, WeierstrassCurve.Affine.addX, Curve.weier]
    simp only [Curve.cast]
    push_cast; ring
  have hy : c.cast (chordPoint c l p1.x.toNat p1.y.toNat p2.x.toNat).y =
      c.weier.addY (c.cast p1.x) (c.cast p2.x) (c.cast p1.y) (l : ZMod c.q.toNat) := by
    simp only [chordPoint, cast_toWord_mod hq, WeierstrassCurve.Affine.addY, WeierstrassCurve.Affine.negY,
      WeierstrassCurve.Affine.negAddY, WeierstrassCurve.Affine.addX, Curve.weier]
    simp only [Curve.cast]
    push_cast
    rw [cast_mod hq]
    push_cast; ring
  have hf := chordPoint_inField (c := c) hq l p1.x.toNat p1.y.toNat p2.x.toNat
  have hn := WeierstrassCurve.Affine.nonsingular_add h1 h2 hxy
  rw [← hl, ← hx, ← hy] at hn
  refine .inr ⟨ident_not_on_curve hc hf hn.1, hf, hn, ?_⟩
  rw [WeierstrassCurve.Affine.Point.add_some hxy]
  simp only [WeierstrassCurve.Affine.Point.some.injEq]
  rw [← hl, hx, hy]
  exact ⟨rfl, rfl⟩

theorem rep_add {c : Curve} (hc : CurveSound c) {p1 p2 : Point} {P1 P2 : c.weier.Point} (h1 : Rep c p1 P1) (h2 : Rep c p2 P2) :
    letI := Fact.mk hc.q_prime
    Rep c (ecAdd c p1 p2) (P1 + P2) := by
  have := Fact.mk hc.q_prime
  have hq : 0 < c.q.toNat := by have := hc.q_gt_two; omega
  obtain ⟨rfl, rfl⟩ | ⟨hn1, hf1, hs1, rfl⟩ := h1
  · rw [ecAdd_ident_left, ← WeierstrassCurve.Affine.Point.zero_def, zero_add]; exact h2
  obtain ⟨rfl, rfl⟩ | ⟨hn2, hf2, hs2, rfl⟩ := h2
  · rw [ecAdd_ident_right, ← WeierstrassCurve.Affine.Point.zero_def, add_zero]; exact .inr ⟨hn1, hf1, hs1, rfl⟩
  have i1 := inField_iff.mp hf1
  have i2 := inField_iff.mp hf2
  have negY_eq : ∀ x y : ZMod c.q.toNat, c.weier.negY x y = -y := fun x y => by
    simp [WeierstrassCurve.Affine.negY, Curve.weier]
  have e1 := weier_equation.mp hs1.1
  have e2 := weier_equation.mp hs2.1
  have two_ne : (2 : ZMod c.q.toNat) ≠ 0 := by
    intro h2
    have h3 := (ZMod.natCast_eq_zero_iff 2 c.q.toNat).mp (by exact_mod_cast h2)
    exact absurd (Nat.le_of_dvd (by norm_num) h3) (by have := hc.q_gt_two; omega)
  have zero_iff : ∀ w : Word, w.toNat < c.q.toNat → (c.cast w = 0 ↔ w = 0#32) := fun w hw => by
    rw [← cast_inj_word hw (show (0#32).toNat < c.q.toNat from hq)]
    simp [Curve.cast]
  by_cases hx : p1.x = p2.x
  · by_cases hy : p1.y ≠ p2.y ∨ p1.y = 0#32
    · have : ecAdd c p1 p2 = ident := by
        rw [ecAdd]; simp only [hn1, hn2, if_false, hx, true_and, hy, if_true]
      rw [this, WeierstrassCurve.Affine.Point.add_of_Y_eq (by rw [hx])]
      · exact .inl ⟨rfl, rfl⟩
      · rw [negY_eq]
        rcases hy with hy | hy
        · have hne : c.cast p1.y - c.cast p2.y ≠ 0 := fun h =>
            hy ((cast_inj_word i1.2 i2.2).mp (sub_eq_zero.mp h))
          have hm : (c.cast p1.y - c.cast p2.y) * (c.cast p1.y + c.cast p2.y) = 0 := by
            rw [hx] at e1
            linear_combination e1 - e2
          rcases mul_eq_zero.mp hm with h | h
          · exact absurd h hne
          · exact eq_neg_of_add_eq_zero_left h
        · have h1y : c.cast p1.y = 0 := (zero_iff _ i1.2).mpr hy
          rw [hx] at e1
          have : c.cast p2.y ^ 2 = 0 := by rw [e2, ← e1, h1y]; ring
          rw [h1y, pow_eq_zero_iff (by norm_num) |>.mp this, neg_zero]
    · simp only [ne_eq, not_or, not_not] at hy
      have hp : p1 = p2 := by cases p1; cases p2; simp_all
      subst hp
      have hne : c.cast p1.y ≠ 0 := fun h => hy.2 ((zero_iff _ i1.2).mp h)
      have h2y : (2 : ZMod c.q.toNat) * c.cast p1.y ≠ 0 := mul_ne_zero two_ne hne
      have hneg : c.cast p1.y ≠ c.weier.negY (c.cast p1.x) (c.cast p1.y) := by
        rw [negY_eq]; intro h; apply h2y; linear_combination h
      rw [ecAdd]
      simp only [hn1, if_false, ne_eq, not_true_eq_false, false_or, hy.2, and_false, if_true]
      apply rep_chord hc hs1 hs1 (fun h => hneg h.2)
      rw [cast_mod hq, WeierstrassCurve.Affine.slope_of_Y_ne rfl hneg, negY_eq]
      have hi := slopeInverse_mul hc (v := 2 * (p1.y.toNat : Int)) (by push_cast; exact h2y)
      push_cast at hi ⊢
      rw [eq_div_iff (by intro h; apply h2y; linear_combination h)]
      simp only [Curve.weier, Curve.cast] at hi ⊢
      linear_combination (3 * (p1.x.toNat : ZMod c.q.toNat) ^ 2 + (c.a.toNat : ZMod c.q.toNat)) * hi
  · have hxc : c.cast p1.x ≠ c.cast p2.x := fun h => hx ((cast_inj_word i1.1 i2.1).mp h)
    have hp : p1 ≠ p2 := fun h => hx (by rw [h])
    rw [ecAdd]
    simp only [hn1, hn2, if_false, hx, false_and, hp]
    apply rep_chord hc hs1 hs2 (fun h => hxc h.1)
    rw [cast_mod hq, WeierstrassCurve.Affine.slope_of_X_ne hxc]
    have hi := slopeInverse_mul hc (v := (p2.x.toNat : Int) - (p1.x.toNat : Int)) (by
      push_cast; exact sub_ne_zero.mpr (Ne.symm hxc))
    push_cast at hi ⊢
    rw [eq_div_iff (sub_ne_zero.mpr hxc)]
    simp only [Curve.cast] at hi ⊢
    linear_combination ((p1.y.toNat : ZMod c.q.toNat) - (p2.y.toNat : ZMod c.q.toNat)) * hi

theorem rep_smulLoop {c : Curve} (hc : CurveSound c) (n : Nat) : ∀ (r t : Point) (R T : c.weier.Point) (j : Nat),
    j ≤ n → Rep c r R → Rep c t T →
    letI := Fact.mk hc.q_prime
    Rep c (smulLoop c n r t j) (R + j • T) := by
  have := Fact.mk hc.q_prime
  induction n with
  | zero =>
    intro r t R T j hj hr ht
    obtain rfl : j = 0 := by omega
    simpa [smulLoop] using hr
  | succ n ih =>
    intro r t R T j hj hr ht
    by_cases h0 : j = 0
    · subst h0; simpa [smulLoop] using hr
    · simp only [smulLoop, h0, if_false]
      have hd := rep_add hc ht ht
      by_cases h1 : j % 2 = 1
      · simp only [h1, if_true]
        have h := ih _ _ _ _ (j / 2) (by omega) (rep_add hc hr ht) hd
        have e : R + T + (j / 2) • (T + T) = R + j • T := by
          rw [← two_nsmul, ← mul_nsmul', add_assoc, ← succ_nsmul']
          congr 2; omega
        rwa [e] at h
      · simp only [h1, if_false]
        have h := ih _ _ _ _ (j / 2) (by omega) hr hd
        have e : R + (j / 2) • (T + T) = R + j • T := by
          rw [← two_nsmul, ← mul_nsmul']
          congr 2; omega
        rwa [e] at h

/-- A scalar multiple stands for the multiple in the group. -/
theorem rep_smul {c : Curve} (hc : CurveSound c) {p : Point} {P : c.weier.Point} (h : Rep c p P) (k : Nat) :
    letI := Fact.mk hc.q_prime
    Rep c (ecSmul c p k) (k • P) := by
  have := Fact.mk hc.q_prime
  have h1 := rep_smulLoop hc k ident p .zero P k (le_refl _) (.inl ⟨rfl, rfl⟩) h
  rwa [← WeierstrassCurve.Affine.Point.zero_def, zero_add] at h1

end Sys2Proof.Machine
end

