-- ==== Sys2Proof/Laws/HostProgram.lean ====
section
/-! SUPPORT. A host program beside the engine is one schedule of `step` (`30_encoding.md` R98 to R100, `20_memory.md` R69): what one
event does never depends on what is still scheduled, so the turns of an interleaving and the steps of its events agree. -/

namespace Sys2Proof.Machine

/-! ### What an event does not depend on -/

/-- A completion leaves everything it does not read as it finds it. -/
theorem completeWord_frame {w : Word} {s t : State} (h : completeWord w s = .next t) : s.withFrameOf t = t := by
  have h1 := completeWord_withFrameOf w s s
  rw [State.withFrameOf_self, h, mapNext_next] at h1
  exact (Host.Outcome.next.inj h1).symm

theorem completeWord_schedule (w : Word) (s : State) (es : List Event) :
    completeWord w { s with schedule := es } = mapNext (fun t => { t with schedule := es }) (completeWord w s) := by
  have h1 := completeWord_withFrameOf w { s with schedule := es } s
  rw [show ({ s with schedule := es } : State).withFrameOf s = { s with schedule := es } from rfl] at h1
  rw [h1]
  cases h : completeWord w s with
  | next t =>
    have h2 := completeWord_frame h
    rw [mapNext_next, mapNext_next, ← h2]
    rfl
  | fault x => rfl
  | refused x => rfl

theorem busWrite_schedule (off : BitVec 8) (v : Word) (s : State) (es : List Event) :
    busWrite off v { s with schedule := es } = { busWrite off v s with schedule := es } := by
  unfold busWrite
  cases regAt off with
  | none => rfl
  | some r =>
    cases r <;> try rfl
    simp only [writeReg, writeCmd]
    cases s.pending <;> rfl

/-- What one event does is the same whatever is scheduled after it, and it leaves that schedule. -/
theorem perform_schedule (e : Event) (s : State) (es : List Event) :
    perform e { s with schedule := es } = mapNext (fun t => { t with schedule := es }) (perform e s) := by
  cases e with
  | reset => rfl
  | engine =>
    obtain ⟨hp, h⟩ | ⟨w, hp, h⟩ := engineTurn_cases s
    · simp only [perform, h, mapNext_next]
      simp only [engineTurn, fetch, hp]
    · simp only [perform, h]
      rw [← completeWord_schedule]
      simp only [engineTurn, fetch, hp]
  | access a =>
    simp only [perform, hostAccess]
    split_ifs with ha
    · cases a.write with
      | none => simp only [mapNext_next, busRead_schedule]
      | some v => simp only [mapNext_next, busWrite_schedule]
    · rfl

/-- A scheduled event is performed on the rest of the schedule. -/
theorem step_perform {e : Event} {es : List Event} {s t : State} (h : perform e s = .next t) :
    step { s with schedule := e :: es } = .next { t with schedule := es } := by
  have h1 : step { s with schedule := e :: es } = perform e { s with schedule := es } := rfl
  rw [h1, perform_schedule, h, mapNext_next]

/-! ### Turns -/

/-- A turn either finds the host with nothing left to do, or performs its event. -/
theorem HostRun.turn_eq_next {t : Turn} {r r' : HostRun} (h : r.turn t = .next r') :
    (r.event t = none ∧ r' = r)
      ∨ ∃ e s, r.event t = some e ∧ perform e r.engine = .next s ∧ r' = { r.hostSide t with engine := s } := by
  unfold HostRun.turn at h
  cases he : r.event t with
  | none => rw [he] at h; exact .inl ⟨rfl, (Host.Outcome.next.inj h).symm⟩
  | some e =>
    rw [he] at h
    dsimp only at h
    cases hp : perform e r.engine with
    | next s => rw [hp] at h; exact .inr ⟨e, s, rfl, hp, (Host.Outcome.next.inj h).symm⟩
    | fault x => rw [hp] at h; cases h
    | refused x => rw [hp] at h; cases h

theorem HostRun.turns_cons {t : Turn} {ts : List Turn} {r r' : HostRun} (h : r.turns (t :: ts) = .next r') :
    ∃ r1, r.turn t = .next r1 ∧ r1.turns ts = .next r' := by
  unfold HostRun.turns at h
  cases h1 : r.turn t with
  | next r1 => rw [h1] at h; exact ⟨r1, rfl, h⟩
  | fault x => rw [h1] at h; cases h
  | refused x => rw [h1] at h; cases h

/-- A host program under an interleaving is the run of `step` over the events of that interleaving. -/
theorem HostRun.turns_eq_run (ts : List Turn) : ∀ {r r' : HostRun} (rest : List Event), r.turns ts = .next r' →
    Host.Core.run Sys2Proof.core (r.events ts).length { r.engine with schedule := r.events ts ++ rest }
      = .next { r'.engine with schedule := rest } := by
  induction ts with
  | nil => intro r r' rest h; cases h; rfl
  | cons t ts ih =>
    intro r r' rest h
    obtain ⟨r1, h1, h2⟩ := HostRun.turns_cons h
    have h3 := ih rest h2
    have he : r.events (t :: ts) = (r.event t).toList ++ r1.events ts := by
      rw [HostRun.events, h1]
    rw [he]
    obtain ⟨h4, rfl⟩ | ⟨e, s, h4, h5, rfl⟩ := HostRun.turn_eq_next h1
    · rw [h4]; exact h3
    · rw [h4, Option.toList_some, List.cons_append, List.nil_append, List.length_cons, Nat.add_comm _ 1]
      exact (run_add (run_one (step_perform h5))).trans h3

/-! ### The host's turn -/

theorem HostRun.turn_write {off : BitVec 8} (ho : off.toNat % 4 = 0) (v : Word) (os : List HostOp) (s : State)
    (m : List Transaction) :
    (HostRun.mk (.write off v :: os) s m).turn .host = .next ⟨os, busWrite off v s, m ++ [⟨.w, off, v⟩]⟩ := by
  simp [HostRun.turn, HostRun.event, HostOp.event, perform, wordWrite, hostAccess, Access.admitted, ho, HostRun.hostSide,
    HostOp.rest, HostOp.transaction]

theorem HostRun.turn_read {off : BitVec 8} (ho : off.toNat % 4 = 0) (os : List HostOp) (s : State) (m : List Transaction) :
    (HostRun.mk (.read off :: os) s m).turn .host =
      .next ⟨os, { s with hostReads := (off, busRead off s) :: s.hostReads }, m ++ [⟨.r, off, busRead off s⟩]⟩ := by
  simp [HostRun.turn, HostRun.event, HostOp.event, perform, wordRead, hostAccess, Access.admitted, ho, HostRun.hostSide,
    HostOp.rest, HostOp.transaction]

/-- BUSY is bit 0 of STATUS (`10_state.md` R25, R26). -/
theorem busRead_status_busy (s : State) : (busRead 0x08#8 s).getLsbD 0 = s.busy := by
  show s.statusWord.getLsbD 0 = s.busy
  unfold State.statusWord
  rw [BitVec.getLsbD_append]
  simp

/-- A round of `wait`: a read of STATUS, and another round exactly while the engine is busy. -/
theorem HostRun.turn_wait (os : List HostOp) (s : State) (m : List Transaction) :
    (HostRun.mk (.wait :: os) s m).turn .host =
      .next ⟨if s.busy then .wait :: os else os, { s with hostReads := (0x08#8, busRead 0x08#8 s) :: s.hostReads },
        m ++ [⟨.r, 0x08#8, busRead 0x08#8 s⟩]⟩ := by
  rw [← busRead_status_busy]
  rfl

end Sys2Proof.Machine
end

