-- ==== Sys2Proof/Laws/PerInstr.lean ====
section
/-! SUPPORT. One lemma per command for the statements about all commands as syntax: family EncodingLegal. -/

namespace Sys2Proof.Laws.EncodingLegal

/-- The word a command is encoded by passes both checks of a legal word (`30_encoding.md` R90, R91), and its opcode field is the
command's opcode. -/
def Statement (i : Sys2Proof.Instr) : Prop :=
  Sys2Proof.legalWord (Sys2Proof.encode i) = true ∧ Sys2Proof.opcField (Sys2Proof.encode i) = Sys2Proof.opcodeOf i

theorem nop : Statement .nop := ⟨by decide, by decide⟩
theorem inv : Statement .inv := ⟨by decide, by decide⟩
theorem sqrt : Statement .sqrt := ⟨by decide, by decide⟩
theorem curveLoad : Statement .curveLoad := ⟨by decide, by decide⟩
theorem atX : Statement .atX := ⟨by decide, by decide⟩
theorem isValid : Statement .isValid := ⟨by decide, by decide⟩
theorem neg : Statement .neg := ⟨by decide, by decide⟩
theorem add : Statement .add := ⟨by decide, by decide⟩
theorem dbl : Statement .dbl := ⟨by decide, by decide⟩
theorem smul : Statement .smul := ⟨by decide, by decide⟩
theorem order : Statement .order := ⟨by decide, by decide⟩
theorem cipherLoad : Statement .cipherLoad := ⟨by decide, by decide⟩
theorem keygen : Statement .keygen := ⟨by decide, by decide⟩
theorem encrypt : Statement .encrypt := ⟨by decide, by decide⟩
theorem decrypt : Statement .decrypt := ⟨by decide, by decide⟩
theorem mapBuild : Statement .mapBuild := ⟨by decide, by decide⟩
theorem encodeSymbol : Statement .encodeSymbol := ⟨by decide, by decide⟩
theorem decodePoint : Statement .decodePoint := ⟨by decide, by decide⟩

end Sys2Proof.Laws.EncodingLegal
end

