-- ==== Sys2Proof/Tests/Slice0.lean ====
section
/-! SUPPORT. The model's own tests. Expected results come from the spec: the encodings of `30_encoding.md` R90 and R92, the vectors of
`95_test_vectors.md` (cited by number), or a hand calculation where a comment says so. The last part shows, for every statement
that has hypotheses, concrete values that meet them. -/

namespace Sys2Proof.Tests

open Sys2Proof Sys2Proof.Machine

-- One test after the other: each `decide +kernel` waits for the theorems before it, and waiting side by side costs a thread each.
set_option Elab.async false

/-! ### Ill-formed terms are refused -/

/-- Every command is well formed (R93: it has no operand). -/
theorem test_all_wellFormed (i : Instr) : i.wellFormed = true := by cases i <;> rfl

/-- K2: bit 8 set. -/
theorem test_reserved_bit_refused : reservedBitsClear 0x00000100#32 = false ∧ legalWord 0x00000100#32 = false := by decide

/-- K5: bit 31 set. -/
theorem test_top_bit_refused : legalWord 0x80000004#32 = false := by decide

/-- K3, K4: unassigned opcodes. -/
theorem test_unassigned_refused : opcodeAssigned 0x00000012#32 = false ∧ legalWord 0x000000FF#32 = false := by decide

/-- R63: a misaligned offset, a sub-word width, a partial byte-enable pattern. -/
theorem test_bad_accesses_refused :
    Access.admitted ⟨0x12#8, 32, 0b1111#4, none⟩ = false ∧ Access.admitted ⟨0x10#8, 8, 0b1111#4, none⟩ = false
      ∧ Access.admitted ⟨0x10#8, 32, 0b0001#4, none⟩ = false := by decide

/-! ### Decoding: the words written out bit by bit (R90, R92) -/

theorem test_decode_control : decode 0b00000000000000000000000000000000#32 = .ok .nop := by decide

theorem test_decode_modular :
    decode 0b00000000000000000000000000000001#32 = .ok .inv
      ∧ decode 0b00000000000000000000000000000010#32 = .ok .sqrt := by decide

theorem test_decode_curve :
    decode 0b00000000000000000000000000000011#32 = .ok .curveLoad
      ∧ decode 0b00000000000000000000000000000100#32 = .ok .atX
      ∧ decode 0b00000000000000000000000000000101#32 = .ok .isValid
      ∧ decode 0b00000000000000000000000000000110#32 = .ok .neg
      ∧ decode 0b00000000000000000000000000000111#32 = .ok .add
      ∧ decode 0b00000000000000000000000000001000#32 = .ok .dbl
      ∧ decode 0b00000000000000000000000000001001#32 = .ok .smul
      ∧ decode 0b00000000000000000000000000001010#32 = .ok .order := by decide

theorem test_decode_elgamal :
    decode 0b00000000000000000000000000001011#32 = .ok .cipherLoad
      ∧ decode 0b00000000000000000000000000001100#32 = .ok .keygen
      ∧ decode 0b00000000000000000000000000001101#32 = .ok .encrypt
      ∧ decode 0b00000000000000000000000000001110#32 = .ok .decrypt := by decide

theorem test_decode_encoding :
    decode 0b00000000000000000000000000001111#32 = .ok .mapBuild
      ∧ decode 0b00000000000000000000000000010000#32 = .ok .encodeSymbol
      ∧ decode 0b00000000000000000000000000010001#32 = .ok .decodePoint := by decide

/-- R64: lane 0, the first byte, carries the opcode. -/
theorem test_decode_bytes :
    decodeBytes [0x07#8, 0x00#8, 0x00#8, 0x00#8] = .ok .add
      ∧ decodeBytes [0x00#8, 0x00#8, 0x00#8, 0x07#8] = .error .reservedBitsSet
      ∧ decodeBytes [0x07#8] = .error .notOneWord := by decide

theorem test_decodeTableWord : decodeTableWord 32 0x11 = some .decodePoint ∧ decodeTableWord 32 0x12 = none := by decide

/-! ### One command each (vectors of §2) -/

/-- STATUS and RES0 to RES3 after a completion. -/
def answer (o : Out) : Option (Word × Word × Word × Word × Word) :=
  match o with
  | .next t => some (t.statusWord, t.res0, t.res1, t.res2, t.res3)
  | .fault _ => none
  | .refused _ => none

/-- The next state, where there is one. -/
def nextState (o : Out) : Option State :=
  match o with
  | .next t => some t
  | .fault _ => none
  | .refused _ => none

/-- Context RESET with the operands accepted. -/
def atReset (o : Operands) : State := { State.reset with snap := o }

/-- A context with a curve loaded (REF-C, S5, S3). -/
def onCurve (c : Curve) (o : Operands) : State := { State.reset with curve := c, curveValid := true, snap := o }

/-- A context with a cipher loaded (REF). -/
def withCipher (c : Curve) (g : Point) (n : Word) (o : Operands) : State :=
  { onCurve c o with gen := g, orderN := n, cipherValid := true }

def refCurve : Curve := ⟨2#32, 31#32, 571#32⟩
def curveS5 : Curve := ⟨1#32, 1#32, 5#32⟩
def curveS3 : Curve := ⟨1#32, 1#32, 3#32⟩

/-- Context REF. -/
def ref (o : Operands) : State := withCipher refCurve ⟨12#32, 245#32⟩ 282#32 o

/-- Context S5 with the cipher of V7.8 and its map; by hand: (2, 1) has order 3 and 2·(2, 1) = −(2, 1) = (2, 4). -/
def builtS5 (o : Operands) : State :=
  { withCipher curveS5 ⟨2#32, 1#32⟩ 3#32 o with
    mapRam := [(0, ident), (1, ⟨2#32, 1#32⟩), (2, ⟨2#32, 4#32⟩)], mapValid := true }

/-- V1.1, V1.10. -/
theorem test_inv : answer (exec .inv (atReset ⟨3#32, 7#32, 0#32, 0#32, 0#32⟩)) = some (0x2#32, 5#32, 0#32, 0#32, 0#32)
    ∧ answer (exec .inv (atReset ⟨14#32, 7#32, 0#32, 0#32, 0#32⟩)) = some (0x80A#32, 0#32, 0#32, 0#32, 0#32) := by
  decide +kernel

/-- V1.13, V1.3. -/
theorem test_inv_edges : answer (exec .inv (atReset ⟨5#32, 0#32, 0#32, 0#32, 0#32⟩)) = some (0x80A#32, 0#32, 0#32, 0#32, 0#32)
    ∧ answer (exec .inv (atReset ⟨4294967295#32, 7#32, 0#32, 0#32, 0#32⟩)) = some (0x2#32, 5#32, 0#32, 0#32, 0#32) := by
  decide +kernel

/-- V2.10, V2.4. -/
theorem test_sqrt : answer (exec .sqrt (atReset ⟨1#32, 8#32, 0#32, 0#32, 0#32⟩)) = some (0x2#32, 1#32, 7#32, 0#32, 0#32)
    ∧ answer (exec .sqrt (atReset ⟨0#32, 7#32, 0#32, 0#32, 0#32⟩)) = some (0x20A#32, 0#32, 0#32, 0#32, 0#32) := by
  decide +kernel

/-- V2.5, V2.8. -/
theorem test_sqrt_range : answer (exec .sqrt (atReset ⟨7#32, 7#32, 0#32, 0#32, 0#32⟩)) = some (0x120A#32, 0#32, 0#32, 0#32, 0#32)
    ∧ answer (exec .sqrt (atReset ⟨0#32, 1#32, 0#32, 0#32, 0#32⟩)) = some (0x20A#32, 0#32, 0#32, 0#32, 0#32) := by
  decide +kernel

/-- V3.1, V3.2. -/
theorem test_curveLoad :
    answer (exec .curveLoad (atReset ⟨2#32, 31#32, 571#32, 0#32, 0#32⟩)) = some (0x12#32, 0#32, 0#32, 0#32, 0#32)
      ∧ answer (exec .curveLoad (atReset ⟨0#32, 31#32, 571#32, 0#32, 0#32⟩)) = some (0x10A#32, 0#32, 0#32, 0#32, 0#32) := by
  decide +kernel

/-- V3.10 (singular), V3.8 (composite), V3.15 (a failed reload keeps the cipher and the map). -/
theorem test_curveLoad_refused :
    answer (exec .curveLoad (atReset ⟨2#32, 2#32, 5#32, 0#32, 0#32⟩)) = some (0x10A#32, 0#32, 0#32, 0#32, 0#32)
      ∧ answer (exec .curveLoad (atReset ⟨1#32, 1#32, 9#32, 0#32, 0#32⟩)) = some (0x10A#32, 0#32, 0#32, 0#32, 0#32)
      ∧ answer (exec .curveLoad (builtS5 ⟨0#32, 31#32, 571#32, 0#32, 0#32⟩)) = some (0x17A#32, 0#32, 0#32, 0#32, 0#32) := by
  decide +kernel

/-- V4.11, V4.13 (rhs = 0, conflict C1). -/
theorem test_at : answer (exec .atX (onCurve curveS5 ⟨0#32, 0#32, 0#32, 0#32, 0#32⟩)) = some (0x12#32, 0#32, 1#32, 0#32, 4#32)
    ∧ answer (exec .atX (onCurve curveS3 ⟨1#32, 0#32, 0#32, 0#32, 0#32⟩)) = some (0x31A#32, 0#32, 0#32, 0#32, 0#32) := by
  decide +kernel

/-- V4.9, V4.14. -/
theorem test_at_refused :
    answer (exec .atX (onCurve refCurve ⟨571#32, 0#32, 0#32, 0#32, 0#32⟩)) = some (0x121A#32, 0#32, 0#32, 0#32, 0#32)
      ∧ answer (exec .atX (atReset ⟨12#32, 0#32, 0#32, 0#32, 0#32⟩)) = some (0x110A#32, 0#32, 0#32, 0#32, 0#32) := by
  decide +kernel

/-- V4.15, V4.17. -/
theorem test_isValid :
    answer (exec .isValid (onCurve refCurve ⟨12#32, 245#32, 0#32, 0#32, 0#32⟩)) = some (0x12#32, 1#32, 0#32, 0#32, 0#32)
      ∧ answer (exec .isValid (onCurve refCurve ⟨12#32, 244#32, 0#32, 0#32, 0#32⟩)) = some (0x12#32, 0#32, 0#32, 0#32, 0#32) := by
  decide +kernel

/-- V4.18, V4.22. -/
theorem test_isValid_edges :
    answer (exec .isValid (onCurve refCurve ⟨0#32, 0#32, 0#32, 0#32, 0#32⟩)) = some (0x12#32, 1#32, 0#32, 0#32, 0#32)
      ∧ answer (exec .isValid (onCurve refCurve ⟨583#32, 245#32, 0#32, 0#32, 0#32⟩)) = some (0x12#32, 0#32, 0#32, 0#32, 0#32) := by
  decide +kernel

/-- V4.24, V4.26. -/
theorem test_neg :
    answer (exec .neg (onCurve refCurve ⟨12#32, 245#32, 0#32, 0#32, 0#32⟩)) = some (0x12#32, 12#32, 326#32, 0#32, 0#32)
      ∧ answer (exec .neg (onCurve refCurve ⟨0#32, 0#32, 0#32, 0#32, 0#32⟩)) = some (0x12#32, 0#32, 0#32, 0#32, 0#32) := by
  decide +kernel

/-- V4.28. -/
theorem test_neg_range :
    answer (exec .neg (onCurve refCurve ⟨12#32, 571#32, 0#32, 0#32, 0#32⟩)) = some (0x121A#32, 0#32, 0#32, 0#32, 0#32) := by
  decide +kernel

/-- V5.3, V5.7. -/
theorem test_add :
    answer (exec .add (onCurve refCurve ⟨447#32, 298#32, 136#32, 367#32, 0#32⟩)) = some (0x12#32, 511#32, 379#32, 0#32, 0#32)
      ∧ answer (exec .add (onCurve refCurve ⟨12#32, 245#32, 12#32, 326#32, 0#32⟩)) = some (0x12#32, 0#32, 0#32, 0#32, 0#32) := by
  decide +kernel

/-- V5.11 (off the curve), V5.13. -/
theorem test_add_edges :
    answer (exec .add (onCurve refCurve ⟨1#32, 1#32, 2#32, 2#32, 0#32⟩)) = some (0x12#32, 569#32, 2#32, 0#32, 0#32)
      ∧ answer (exec .add (onCurve refCurve ⟨0#32, 0#32, 0#32, 571#32, 0#32⟩)) = some (0x121A#32, 0#32, 0#32, 0#32, 0#32) := by
  decide +kernel

/-- V5.14, V5.16. -/
theorem test_dbl :
    answer (exec .dbl (onCurve refCurve ⟨12#32, 245#32, 0#32, 0#32, 0#32⟩)) = some (0x12#32, 249#32, 475#32, 0#32, 0#32)
      ∧ answer (exec .dbl (onCurve refCurve ⟨70#32, 0#32, 0#32, 0#32, 0#32⟩)) = some (0x12#32, 0#32, 0#32, 0#32, 0#32) := by
  decide +kernel

/-- V6.4, V6.1. -/
theorem test_smul :
    answer (exec .smul (onCurve refCurve ⟨12#32, 245#32, 0#32, 0#32, 5#32⟩)) = some (0x12#32, 447#32, 298#32, 0#32, 0#32)
      ∧ answer (exec .smul (onCurve refCurve ⟨12#32, 245#32, 0#32, 0#32, 0#32⟩)) = some (0x12#32, 0#32, 0#32, 0#32, 0#32) := by
  decide +kernel

/-- V6.26, V6.27. -/
theorem test_order :
    answer (exec .order (onCurve curveS5 ⟨2#32, 1#32, 0#32, 0#32, 0#32⟩)) = some (0x12#32, 3#32, 0#32, 0#32, 0#32)
      ∧ answer (exec .order (onCurve curveS5 ⟨0#32, 1#32, 0#32, 0#32, 0#32⟩)) = some (0x61A#32, 0#32, 0#32, 0#32, 0#32) := by
  decide +kernel

/-- V6.23, V6.24. -/
theorem test_order_invalid :
    answer (exec .order (onCurve refCurve ⟨0#32, 0#32, 0#32, 0#32, 0#32⟩)) = some (0x51A#32, 0#32, 0#32, 0#32, 0#32)
      ∧ answer (exec .order (onCurve refCurve ⟨12#32, 244#32, 0#32, 0#32, 0#32⟩)) = some (0x51A#32, 0#32, 0#32, 0#32, 0#32) := by
  decide +kernel

/-- V7.8, V7.9. -/
theorem test_cipherLoad :
    answer (exec .cipherLoad (onCurve curveS5 ⟨2#32, 1#32, 0#32, 0#32, 0#32⟩)) = some (0x32#32, 3#32, 0#32, 0#32, 0#32)
      ∧ answer (exec .cipherLoad (onCurve curveS5 ⟨0#32, 1#32, 0#32, 0#32, 0#32⟩)) = some (0x61A#32, 0#32, 0#32, 0#32, 0#32) := by
  decide +kernel

/-- V7.5, V7.10. -/
theorem test_cipherLoad_refused :
    answer (exec .cipherLoad (onCurve refCurve ⟨0#32, 0#32, 0#32, 0#32, 0#32⟩)) = some (0x41A#32, 0#32, 0#32, 0#32, 0#32)
      ∧ answer (exec .cipherLoad (atReset ⟨12#32, 245#32, 0#32, 0#32, 0#32⟩)) = some (0x110A#32, 0#32, 0#32, 0#32, 0#32) := by
  decide +kernel

/-- V7.11, V7.17. -/
theorem test_keygen :
    answer (exec .keygen (ref ⟨0#32, 0#32, 0#32, 0#32, 5#32⟩)) = some (0x32#32, 447#32, 298#32, 0#32, 0#32)
      ∧ answer (exec .keygen (onCurve refCurve ⟨0#32, 0#32, 0#32, 0#32, 5#32⟩)) = some (0x111A#32, 0#32, 0#32, 0#32, 0#32) := by
  decide +kernel

/-- V7.18. -/
theorem test_encrypt :
    answer (exec .encrypt (ref ⟨67#32, 169#32, 447#32, 298#32, 15#32⟩)) = some (0x32#32, 203#32, 286#32, 340#32, 137#32) := by
  decide +kernel

/-- V7.24, V7.26. -/
theorem test_encrypt_invalid :
    answer (exec .encrypt (ref ⟨67#32, 170#32, 447#32, 298#32, 15#32⟩)) = some (0x53A#32, 0#32, 0#32, 0#32, 0#32)
      ∧ answer (exec .encrypt (ref ⟨67#32, 169#32, 571#32, 298#32, 15#32⟩)) = some (0x53A#32, 0#32, 0#32, 0#32, 0#32) := by
  decide +kernel

/-- V7.27. -/
theorem test_decrypt :
    answer (exec .decrypt (ref ⟨203#32, 286#32, 340#32, 137#32, 5#32⟩)) = some (0x32#32, 67#32, 169#32, 0#32, 0#32) := by
  decide +kernel

/-- V7.32, V7.33. -/
theorem test_decrypt_invalid :
    answer (exec .decrypt (ref ⟨203#32, 287#32, 340#32, 137#32, 5#32⟩)) = some (0x53A#32, 0#32, 0#32, 0#32, 0#32)
      ∧ answer (exec .decrypt (ref ⟨203#32, 286#32, 340#32, 138#32, 5#32⟩)) = some (0x53A#32, 0#32, 0#32, 0#32, 0#32) := by
  decide +kernel

/-- R231 on the cipher of V7.8, by hand: the three multiples of (2, 1), and STATUS as in V8.1. -/
theorem test_mapBuild :
    nextState (exec .mapBuild (withCipher curveS5 ⟨2#32, 1#32⟩ 3#32 Operands.zero)) =
        some ((builtS5 Operands.zero).complete .noError)
      ∧ ((builtS5 Operands.zero).complete .noError).statusWord = 0x72#32 := by
  decide +kernel

/-- V8.3: an instance with MAP_DEPTH = 256. -/
theorem test_mapBuild_capacity :
    answer (exec .mapBuild { ref Operands.zero with mapcap := 256#32 }) = some (0x143A#32, 0#32, 0#32, 0#32, 0#32) := by
  decide +kernel

/-- R233 on the map of V7.8: symbol 2 = N − 1 gives −G; and as V8.10, symbol 3 = N is out of range. -/
theorem test_encode :
    answer (exec .encodeSymbol (builtS5 ⟨2#32, 0#32, 0#32, 0#32, 0#32⟩)) = some (0x72#32, 2#32, 4#32, 0#32, 0#32)
      ∧ answer (exec .encodeSymbol (builtS5 ⟨3#32, 0#32, 0#32, 0#32, 0#32⟩)) = some (0x137A#32, 0#32, 0#32, 0#32, 0#32) := by
  decide +kernel

/-- V8.12. -/
theorem test_encode_not_ready :
    answer (exec .encodeSymbol (ref ⟨1#32, 0#32, 0#32, 0#32, 0#32⟩)) = some (0x113A#32, 0#32, 0#32, 0#32, 0#32) := by
  decide +kernel

/-- R235 on the map of V7.8: −G gives 2; (0, 1), valid but no multiple of G, gives UNKNOWN_POINT (as V8.18). -/
theorem test_decode :
    answer (exec .decodePoint (builtS5 ⟨2#32, 4#32, 0#32, 0#32, 0#32⟩)) = some (0x72#32, 2#32, 0#32, 0#32, 0#32)
      ∧ answer (exec .decodePoint (builtS5 ⟨0#32, 1#32, 0#32, 0#32, 0#32⟩)) = some (0x77A#32, 0#32, 0#32, 0#32, 0#32) := by
  decide +kernel

/-- K1. -/
theorem test_nop : answer (exec .nop State.reset) = some (0x2#32, 0#32, 0#32, 0#32, 0#32) := by decide +kernel

/-- R99's example: the operand form of ADD. -/
theorem test_add_expansion :
    (Statement.call (.add ⟨12#32, 245#32⟩ ⟨249#32, 475#32⟩)).ops =
      [.write 0x10#8 12#32, .write 0x14#8 245#32, .write 0x18#8 249#32, .write 0x1C#8 475#32, .write 0x0C#8 0x00000007#32,
        .wait] := by decide

/-- STATUS, CMD, and what is left to do after an interleaving of a host program from reset. -/
def hostAnswer (p : List Statement) (ts : List Turn) : Option (Word × Word × List HostOp) :=
  match (HostRun.start p State.reset).turns ts with
  | .next r => some (r.engine.statusWord, r.engine.cmd, r.todo)
  | .fault _ => none
  | .refused _ => none

/-- K11, run (a) and run (b), with the operands 3 and 7 of V1.1: a completion after the second command write, and one between. -/
theorem test_both_runs_of_two_commands :
    hostAnswer [.wr .x1 3#32, .wr .y1 7#32, .issue .inv, .rawWord 0#32, .wait] [.host, .host, .host, .host, .engine, .host]
        = some (0x6#32, 0x01#32, [])
      ∧ hostAnswer [.wr .x1 3#32, .wr .y1 7#32, .issue .inv, .rawWord 0#32, .wait]
          [.host, .host, .host, .engine, .host, .host, .engine, .host] = some (0x2#32, 0x00#32, []) := by
  decide +kernel

/-- P4, rows 1 to 3: the transactions of an illegal word and its `wait`, the completion in the second round. -/
theorem test_wait_transactions :
    (match (HostRun.start [.wr .ctrl 1#32, .rawWord 0x100#32, .wait] State.reset).turns [.host, .host, .host, .engine, .host] with
      | .next r => some (r.made, r.ended)
      | .fault _ => none
      | .refused _ => none) =
      some ([⟨.w, 0x04#8, 1#32⟩, ⟨.w, 0x0C#8, 0x100#32⟩, ⟨.r, 0x08#8, 0x1#32⟩, ⟨.r, 0x08#8, 0x100A#32⟩], true) := by
  decide +kernel

/-- R99: on an idle engine `wait` makes one read. -/
theorem test_wait_idle : programEvents [.wait] [.host, .host, .host] State.reset = [wordRead 0x08#8] := by decide +kernel

/-- R22: every register stands at its offset. -/
theorem test_offsets (r : Reg) : regAt (regOffset r) = some r := by cases r <;> rfl

/-! ### The hypotheses of the statements can be met

One theorem for each statement of `Certificates/Slice0/Obligations.lean` that has hypotheses, named after it; where a statement has
several clauses, a witness for each, at a boundary of its range. -/

/-- A state at reset with a schedule. -/
def scheduled (es : List Event) : State := { State.reset with schedule := es }

/-- A busy state: the map of V7.8 built, and a command word pending. -/
def busyS5 (w : Word) (es : List Event) : State :=
  { builtS5 Operands.zero with pending := some w, schedule := es }

theorem witness_CurveSound : CurveSound curveS5 where
  q_gt_two := by decide
  q_prime := by show Nat.Prime 5; norm_num
  a_pos := by decide
  a_lt := by decide
  b_pos := by decide
  b_lt := by decide
  nonsingular := by decide

theorem witness_CipherSound : CipherSound curveS5 ⟨2#32, 1#32⟩ 3 where
  valid_gen := by decide +kernel
  gen_ne := by decide
  n_pos := by decide
  n_le := by decide
  order_mul := by decide +kernel
  order_least := by
    intro i h0 h3
    interval_cases i <;> decide +kernel

theorem builtS5_map : Memory.wf (builtS5 Operands.zero).mapRam = true
    ∧ ∀ i, i < 3 → Memory.read (builtS5 Operands.zero).mapRam i = some (ecSmul curveS5 ⟨2#32, 1#32⟩ i) := by decide +kernel

/-- A state with a curve, a cipher and a built map satisfies the invariants, busy or not. -/
theorem witness_EngineInv (w : Word) (es : List Event) : EngineInv (busyS5 w es) where
  cipher_needs_curve := fun _ => rfl
  map_needs_cipher := fun _ => rfl
  curve := fun _ => witness_CurveSound
  cipher := fun _ => witness_CipherSound
  map_fits := fun _ => by show 3 ≤ 1024; decide
  map_built := fun _ i hi => builtS5_map.2 i hi
  busy_clean := fun _ => ⟨rfl, rfl⟩
  depth := by show 256 ≤ 1024; decide
  ram := builtS5_map.1

theorem witness_NopCompletes : decode 0x00000000#32 = .ok .nop := by decide

theorem witness_OpcodeMapDecodes :
    (0x12 ≤ (0x12#32).toNat ∧ (0x12#32).toNat ≤ 0xFF) ∧ (0x12 ≤ (0xFF#32).toNat ∧ (0xFF#32).toNat ≤ 0xFF) := by decide

theorem witness_DecodeInvertsEncode : Instr.wellFormed .decodePoint = true := by decide

theorem witness_StepRunsDecodedCommand :
    (busyS5 0#32 []).pending = some 0#32 ∧ decode 0#32 = .ok .nop ∧ (busyS5 0#32 []).schedule = []
      ∧ (busyS5 0#32 [.engine]).schedule = [.engine] := ⟨rfl, by decide, rfl, rfl⟩

theorem witness_IllegalWordCompletesWithError :
    State.reset.pending = none ∧ (0x100#32).toNat / 256 ≠ 0 ∧ 0x12 ≤ (0x12#32).toNat % 256 := by decide

theorem witness_IdleCommandWriteIsAccepted :
    (scheduled [wordWrite 0x0C#8 7#32]).pending = none
      ∧ (scheduled [wordWrite 0x0C#8 7#32]).schedule = wordWrite 0x0C#8 7#32 :: [] := ⟨rfl, rfl⟩

theorem witness_BusyCommandWriteSetsOverrun :
    (busyS5 1#32 [wordWrite 0x0C#8 7#32]).pending = some 1#32
      ∧ (busyS5 1#32 [wordWrite 0x0C#8 7#32]).schedule = wordWrite 0x0C#8 7#32 :: [] := ⟨rfl, rfl⟩

theorem witness_OperandWriteStoresOnly :
    (scheduled [wordWrite 0x10#8 1#32]).schedule = wordWrite 0x10#8 1#32 :: []
      ∧ (scheduled [wordWrite 0x14#8 1#32]).schedule = wordWrite 0x14#8 1#32 :: []
      ∧ (scheduled [wordWrite 0x18#8 1#32]).schedule = wordWrite 0x18#8 1#32 :: []
      ∧ (scheduled [wordWrite 0x1C#8 1#32]).schedule = wordWrite 0x1C#8 1#32 :: []
      ∧ (scheduled [wordWrite 0x20#8 1#32]).schedule = wordWrite 0x20#8 1#32 :: [] := ⟨rfl, rfl, rfl, rfl, rfl⟩

theorem witness_RunningCommandIgnoresOperandWrites :
    (∃ t, exec .nop (busyS5 0#32 []) = .next t) ∧ 0x10#8 ∈ [0x10#8, 0x14#8, 0x18#8, 0x1C#8, 0x20#8]
      ∧ 0x20#8 ∈ [0x10#8, 0x14#8, 0x18#8, 0x1C#8, 0x20#8] := ⟨⟨_, rfl⟩, by decide, by decide⟩

theorem witness_StatusRegisterLayoutAndClear :
    (scheduled [wordWrite 0x08#8 6#32]).schedule = wordWrite 0x08#8 6#32 :: [] := rfl

theorem witness_ControlRegisterHoldsInterruptEnable :
    (scheduled [wordWrite 0x04#8 1#32]).schedule = wordWrite 0x04#8 1#32 :: [] := rfl

/-- A read-only register, and the first and the last reserved offset of each range. -/
theorem witness_ReadOnlyAndReservedWritesIgnored :
    (0x30#8).toNat % 4 = 0 ∧ (0x30#8).toNat ∉ [0x04, 0x08, 0x0C, 0x10, 0x14, 0x18, 0x1C, 0x20]
      ∧ (scheduled [wordWrite 0x30#8 1#32]).schedule = wordWrite 0x30#8 1#32 :: []
      ∧ (0x24 ≤ (0x24#8).toNat ∧ (0x24#8).toNat ≤ 0x2C) ∧ (0x24 ≤ (0x2C#8).toNat ∧ (0x2C#8).toNat ≤ 0x2C)
      ∧ 0x5C ≤ (0x5C#8).toNat ∧ 0x5C ≤ (0xFC#8).toNat ∧ 1 ≤ 31 ∧ (7 = 7 ∨ 16 ≤ 7) ∧ (16 = 7 ∨ 16 ≤ 16) :=
  ⟨by decide, by decide, rfl, by decide, by decide, by decide, by decide, by decide, by decide, by decide⟩

/-- The first and the last reserved offset of each range, and an admitted read. -/
theorem witness_RegisterReadsFollowTheMap :
    (0x24 ≤ (0x24#8).toNat ∧ (0x24#8).toNat ≤ 0x2C) ∧ (0x24 ≤ (0x2C#8).toNat ∧ (0x2C#8).toNat ≤ 0x2C)
      ∧ 0x5C ≤ (0x5C#8).toNat ∧ 0x5C ≤ (0xFF#8).toNat
      ∧ (0x08#8).toNat % 4 = 0 ∧ (scheduled [wordRead 0x08#8]).schedule = wordRead 0x08#8 :: [] :=
  ⟨by decide, by decide, by decide, by decide, by decide, rfl⟩

/-- The two clauses exclude each other: an admitted access, and one refused for each of the three reasons. -/
theorem witness_InadmissibleAccessRefused :
    (scheduled [.access ⟨0x02#8, 32, 0b1111#4, none⟩]).schedule = .access ⟨0x02#8, 32, 0b1111#4, none⟩ :: []
      ∧ (0x02#8).toNat % 4 ≠ 0 ∧ (8 : Nat) ≠ 32 ∧ (0b0111#4) ≠ 0b1111#4 ∧ (0xFC#8).toNat % 4 = 0 :=
  ⟨rfl, by decide, by decide, by decide, by decide⟩

theorem witness_ResetInputPutsResetValues :
    (busyS5 9#32 [.reset]).schedule = .reset :: []
      ∧ (∃ t, wordWrite 0x10#8 1#32 ≠ .reset ∧ perform (wordWrite 0x10#8 1#32) (busyS5 0#32 []) = .next t)
      ∧ ∃ t, Event.engine ≠ .reset ∧ perform .engine (busyS5 0#32 []) = .next t :=
  ⟨rfl, ⟨_, by decide, rfl⟩, ⟨_, by decide, rfl⟩⟩

theorem witness_InterruptIsLevelOfEnableAndDone :
    (∃ t, exec .nop (busyS5 0#32 []) = .next t)
      ∧ (∃ t, decode 0x12#32 = .error .opcodeUnassigned ∧ completeWord 0x12#32 (busyS5 0x12#32 []) = .next t)
      ∧ (1#32).getLsbD 0 = true ∧ (2#32).getLsbD 0 = false ∧ (2#32).getLsbD 1 = true ∧ State.reset.pending = none :=
  ⟨⟨_, rfl⟩, ⟨_, by decide, rfl⟩, by decide, by decide, by decide, rfl⟩

theorem witness_IdentityAndCapacityNeverChange : ∃ t, step (busyS5 0#32 []) = .next t := ⟨_, rfl⟩

/-- A step that sets OVR, one that clears it by a write and one that clears it by reset. -/
theorem witness_OverrunIsSticky :
    (∃ t, step (busyS5 0#32 [wordWrite 0x0C#8 1#32]) = .next t ∧ (busyS5 0#32 [wordWrite 0x0C#8 1#32]).ovr = false ∧ t.ovr = true)
      ∧ (∃ t, step { scheduled [wordWrite 0x08#8 4#32] with ovr := true } = .next t ∧ (4#32).getLsbD 2 = true ∧ t.ovr = false)
      ∧ ∃ t, step { scheduled [.reset] with ovr := true } = .next t ∧ t.ovr = false :=
  ⟨⟨_, rfl, rfl, rfl⟩, ⟨_, rfl, by decide, rfl⟩, ⟨_, rfl, rfl⟩⟩

theorem witness_HostAccessFrame :
    (∃ t, (busyS5 0#32 [wordRead 0x30#8]).schedule = wordRead 0x30#8 :: [] ∧ step (busyS5 0#32 [wordRead 0x30#8]) = .next t)
      ∧ (busyS5 0#32 [wordRead 0x30#8]).busy = true := ⟨⟨_, rfl, rfl⟩, rfl⟩

theorem witness_BothOrdersOfWriteAndCompletion :
    ∃ t, (busyS5 0#32 []).pending = some 0#32 ∧ completeWord 0#32 { busyS5 0#32 [] with schedule := [] } = .next t := ⟨_, rfl, rfl⟩

theorem witness_PendingCommandCompletes :
    EngineInv (busyS5 0#32 [wordRead 0x08#8]) ∧ (busyS5 0#32 [wordRead 0x08#8]).busy = true
      ∧ (busyS5 0#32 [wordRead 0x08#8]).pending = some 0#32 ∧ Event.reset ∉ (busyS5 0#32 [wordRead 0x08#8]).schedule
      ∧ admittedSchedule (busyS5 0#32 [wordRead 0x08#8]).schedule := by
  refine ⟨witness_EngineInv _ _, rfl, rfl, by simp [busyS5, wordRead], ?_⟩
  intro a ha
  have h : Event.access a = wordRead 0x08#8 := by simpa [busyS5] using ha
  simp only [wordRead, Event.access.injEq] at h
  subst h
  decide

/-- A form on an idle engine, an interleaving in which it is carried out, and a busy and an idle engine for `wait`. -/
theorem witness_OperandFormRunsTheCommand :
    (∃ t, State.reset.pending = none
        ∧ exec .encodeSymbol (accept (encode .encodeSymbol)
            ((Call.encodeSymbol 1#32).writes.foldl (fun u rv => busWrite (regOffset rv.1) rv.2 u) State.reset)) = .next t)
      ∧ (∃ r, Turn.reset ∉ [Turn.host, .host, .engine, .host]
          ∧ (HostRun.start [.call (.encodeSymbol 1#32)] State.reset).turns [.host, .host, .engine, .host] = .next r ∧ r.todo = [])
      ∧ (busyS5 0#32 []).busy = true ∧ State.reset.busy = false :=
  ⟨⟨_, rfl, rfl⟩, ⟨_, by decide, rfl, by decide +kernel⟩, rfl, rfl⟩

/-- An inverse exists (the least one, 0 < t); none exists at m = 0 and at m = 1. -/
theorem witness_InvGivesLeastInverse :
    (1 < (2#32).toNat ∧ (1#32).toNat * 1 % (2#32).toNat = 1 ∧ ∀ u, u < 1 → (1#32).toNat * u % (2#32).toNat ≠ 1)
      ∧ (∀ t, t < (0#32).toNat → (5#32).toNat * t % (0#32).toNat ≠ 1)
      ∧ (∀ t, t < (1#32).toNat → (5#32).toNat * t % (1#32).toNat ≠ 1) := by decide

/-- A root at the first candidate, none for n = 0 modulo 3, and n = m. -/
theorem witness_SqrtGivesLeastRoot :
    ((1#32).toNat < (3#32).toNat ∧ 1 ≤ 1 ∧ 1 < (3#32).toNat ∧ 1 * 1 % (3#32).toNat = (1#32).toNat
        ∧ ∀ u, 1 ≤ u → u < 1 → u * u % (3#32).toNat ≠ (1#32).toNat)
      ∧ ((0#32).toNat < (3#32).toNat ∧ ∀ i, 1 ≤ i → i < (3#32).toNat → i * i % (3#32).toNat ≠ (0#32).toNat)
      ∧ (3#32).toNat ≤ (3#32).toNat := by
  refine ⟨⟨by decide, by decide, by decide, by decide, by omega⟩, ⟨by decide, ?_⟩, by decide⟩
  intro i h1 h2
  have h3 : i < 3 := h2
  interval_cases i <;> decide

theorem witness_CurveLoadInstallsSoundCurves :
    CurveSound ⟨1#32, 1#32, 5#32⟩ ∧ ¬ CurveSound ⟨0#32, 1#32, 5#32⟩ :=
  ⟨witness_CurveSound, fun h => absurd h.a_pos (by decide)⟩

/-- On S5: x = 0 has the root 1; x = 1 has rhs 3 and no root (V4.12); x = Q is out of range. -/
theorem witness_AtGivesBothPoints :
    (onCurve curveS5 Operands.zero).curveValid = true
      ∧ (0 < 5 ∧ 1 ≤ 1 ∧ 1 < 5 ∧ 1 * 1 % 5 = (0 ^ 3 + 1 * 0 + 1) % 5 ∧ ∀ u, 1 ≤ u → u < 1 → u * u % 5 ≠ (0 ^ 3 + 1 * 0 + 1) % 5)
      ∧ (1 < 5 ∧ ∀ i, 1 ≤ i → i < 5 → i * i % 5 ≠ (1 ^ 3 + 1 * 1 + 1) % 5)
      ∧ (onCurve curveS5 ⟨5#32, 0#32, 0#32, 0#32, 0#32⟩).curve.q.toNat
          ≤ (onCurve curveS5 ⟨5#32, 0#32, 0#32, 0#32, 0#32⟩).snap.op0.toNat := by
  refine ⟨rfl, ⟨by decide, by decide, by decide, by decide, by omega⟩, ⟨by decide, ?_⟩, by decide⟩
  intro i h1 h2
  interval_cases i <;> decide

/-- On S5: IDENT, (0, 1), and the two ways to fail (off the curve, out of range). -/
theorem witness_IsValidTestsTheCurveEquation :
    (onCurve curveS5 Operands.zero).curveValid = true
      ∧ (0 < 5 ∧ 0 < 5 ∧ ((0#32 = 0#32 ∧ 0#32 = 0#32) ∨ 0 ^ 2 % 5 = (0 ^ 3 + 1 * 0 + 1) % 5))
      ∧ (0 < 5 ∧ 1 < 5 ∧ 1 ^ 2 % 5 = (0 ^ 3 + 1 * 0 + 1) % 5)
      ∧ ¬ (0 < 5 ∧ 2 < 5 ∧ ((0#32 = 0#32 ∧ 2#32 = 0#32) ∨ 2 ^ 2 % 5 = (0 ^ 3 + 1 * 0 + 1) % 5))
      ∧ ¬ (5 < 5 ∧ 1 < 5) := by decide

theorem witness_NegNegatesTheOrdinate :
    (onCurve curveS5 ⟨0#32, 4#32, 0#32, 0#32, 0#32⟩).curveValid = true ∧ (4#32).toNat < curveS5.q.toNat
      ∧ curveS5.q.toNat ≤ (5#32).toNat := by decide

theorem witness_AddGivesTheSum :
    (onCurve curveS5 ⟨0#32, 4#32, 4#32, 0#32, 0#32⟩).curveValid = true ∧ (0#32).toNat < curveS5.q.toNat
      ∧ (4#32).toNat < curveS5.q.toNat ∧ curveS5.q.toNat ≤ (5#32).toNat := by decide

theorem witness_DblIsAddOfEqualOperands :
    (onCurve curveS5 ⟨0#32, 4#32, 0#32, 0#32, 0#32⟩).curveValid = true ∧ (4#32).toNat < curveS5.q.toNat
      ∧ curveS5.q.toNat ≤ (5#32).toNat
      ∧ ∃ t, exec .dbl (onCurve curveS5 ⟨5#32, 4#32, 0#32, 0#32, 0#32⟩) = .next t := ⟨rfl, by decide, by decide, _, rfl⟩

/-- Each clause on S5: IDENT on either side, inverse points, doubling of (2, 1) with t = 3, and (0, 1) + (2, 1) with t = 3. -/
theorem witness_AdditionFollowsTheGroupLaw :
    CurveSound curveS5 ∧ inField curveS5 ident = true ∧ inField curveS5 ⟨2#32, 1#32⟩ = true ∧ inField curveS5 ⟨2#32, 4#32⟩ = true
      ∧ inField curveS5 ⟨0#32, 1#32⟩ = true
      ∧ ((⟨2#32, 1#32⟩ : Point) ≠ ident ∧ (⟨2#32, 4#32⟩ : Point) ≠ ident ∧ (2#32 = 2#32) ∧ (1#32 ≠ 4#32 ∨ 1#32 = 0#32))
      ∧ (1#32 ≠ 0#32 ∧ 3 < curveS5.q.toNat ∧ 2 * ((1#32).toNat : Int) * (3 : Nat) % curveS5.q.toNat = 1)
      ∧ ((⟨0#32, 1#32⟩ : Point) ≠ ident ∧ (0#32 ≠ 2#32)
          ∧ (((2#32).toNat : Int) - (0#32).toNat) * (3 : Nat) % curveS5.q.toNat = 1) := by
  refine ⟨witness_CurveSound, ?_⟩
  decide

theorem witness_AdditionIsTotalAndInRange :
    CurveSound curveS5 ∧ inField curveS5 ⟨2#32, 1#32⟩ = true ∧ inField curveS5 ⟨0#32, 1#32⟩ = true ∧ 1#32 ≠ 0#32 ∧ 2#32 ≠ 0#32
      ∧ (2#32 = 2#32 ∧ ¬ (1#32 ≠ 1#32 ∨ 1#32 = 0#32)) := by
  refine ⟨witness_CurveSound, ?_⟩
  decide

theorem witness_AdditionCommutes :
    CurveSound curveS5 ∧ inField curveS5 ⟨4#32, 4#32⟩ = true ∧ inField curveS5 ⟨1#32, 1#32⟩ = true :=
  ⟨witness_CurveSound, by decide, by decide⟩

theorem witness_SmulGivesTheMultiple :
    (onCurve curveS5 ⟨4#32, 4#32, 0#32, 0#32, 4294967295#32⟩).curveValid = true ∧ (4#32).toNat < curveS5.q.toNat
      ∧ curveS5.q.toNat ≤ (5#32).toNat := by decide

/-- V6.26 and V6.27 on S5, and IDENT. -/
theorem witness_OrderGivesTheLeastMultiple :
    (onCurve curveS5 ⟨2#32, 1#32, 0#32, 0#32, 0#32⟩).curveValid = true
      ∧ (valid curveS5 ⟨2#32, 1#32⟩ = true ∧ (⟨2#32, 1#32⟩ : Point) ≠ ident ∧ 1 ≤ 3 ∧ 3 ≤ curveS5.q.toNat
          ∧ ecSmul curveS5 ⟨2#32, 1#32⟩ 3 = ident ∧ ∀ j, 1 ≤ j → j < 3 → ecSmul curveS5 ⟨2#32, 1#32⟩ j ≠ ident)
      ∧ (valid curveS5 ⟨0#32, 1#32⟩ = true ∧ (⟨0#32, 1#32⟩ : Point) ≠ ident
          ∧ ∀ j, 1 ≤ j → j ≤ curveS5.q.toNat → ecSmul curveS5 ⟨0#32, 1#32⟩ j ≠ ident)
      ∧ valid curveS5 ⟨0#32, 2#32⟩ = false ∧ ident = (⟨0#32, 0#32⟩ : Point) := by
  refine ⟨rfl, ⟨by decide +kernel, by decide, by decide, by decide, by decide +kernel,
    fun j h1 h3 => witness_CipherSound.order_least j h1 h3⟩, ⟨by decide +kernel, by decide, ?_⟩, by decide +kernel, rfl⟩
  intro j h1 h5
  have h6 : j ≤ 5 := h5
  interval_cases j <;> decide +kernel

/-- As for ORDER: V7.8 and V7.9. -/
theorem witness_CipherLoadInstallsTheGenerator :
    (onCurve curveS5 ⟨2#32, 1#32, 0#32, 0#32, 0#32⟩).curveValid = true
      ∧ (valid curveS5 ⟨2#32, 1#32⟩ = true ∧ ecSmul curveS5 ⟨2#32, 1#32⟩ 3 = ident ∧ 3 ≤ curveS5.q.toNat
          ∧ ∀ j, 1 ≤ j → j < 3 → ecSmul curveS5 ⟨2#32, 1#32⟩ j ≠ ident)
      ∧ (∀ j, 1 ≤ j → j ≤ curveS5.q.toNat → ecSmul curveS5 ⟨0#32, 1#32⟩ j ≠ ident)
      ∧ valid curveS5 ⟨0#32, 2#32⟩ = false :=
  ⟨rfl, ⟨by decide +kernel, by decide +kernel, by decide, witness_OrderGivesTheLeastMultiple.2.1.2.2.2.2.2⟩,
    witness_OrderGivesTheLeastMultiple.2.2.1.2.2, by decide +kernel⟩

theorem witness_KeygenGivesThePublicPoint : (ref ⟨0#32, 0#32, 0#32, 0#32, 4294967295#32⟩).cipherValid = true := rfl

/-- Both points valid, and each of them invalid (V7.24, V7.26). -/
theorem witness_EncryptGivesTheCiphertext :
    (ref Operands.zero).cipherValid = true ∧ valid refCurve ⟨67#32, 169#32⟩ = true ∧ valid refCurve ⟨447#32, 298#32⟩ = true
      ∧ valid refCurve ⟨67#32, 170#32⟩ = false ∧ valid refCurve ⟨571#32, 298#32⟩ = false := by decide +kernel

/-- V7.27, V7.32, V7.33. -/
theorem witness_DecryptGivesThePlainPoint :
    (ref Operands.zero).cipherValid = true ∧ valid refCurve ⟨203#32, 286#32⟩ = true ∧ valid refCurve ⟨340#32, 137#32⟩ = true
      ∧ valid refCurve ⟨203#32, 287#32⟩ = false ∧ valid refCurve ⟨340#32, 138#32⟩ = false := by decide +kernel

/-- N = MAP_DEPTH fits, N = MAP_DEPTH + 1 does not; entries below and from N on. -/
theorem witness_MapBuildFillsTheMap :
    (withCipher curveS5 ⟨2#32, 1#32⟩ 1024#32 Operands.zero).cipherValid = true
      ∧ (withCipher curveS5 ⟨2#32, 1#32⟩ 1024#32 Operands.zero).orderN.toNat
          ≤ (withCipher curveS5 ⟨2#32, 1#32⟩ 1024#32 Operands.zero).mapDepth
      ∧ (withCipher curveS5 ⟨2#32, 1#32⟩ 1025#32 Operands.zero).mapDepth
          < (withCipher curveS5 ⟨2#32, 1#32⟩ 1025#32 Operands.zero).orderN.toNat
      ∧ 1023 < (1024#32).toNat ∧ (1024#32).toNat ≤ 1024 := by decide

/-- The last symbol N − 1, and N. -/
theorem witness_EncodeReadsTheMapEntry :
    (builtS5 Operands.zero).mapValid = true ∧ (builtS5 Operands.zero).orderN.toNat ≤ (builtS5 Operands.zero).mapDepth
      ∧ (2#32).toNat < (builtS5 Operands.zero).orderN.toNat ∧ (builtS5 Operands.zero).orderN.toNat ≤ (3#32).toNat := by decide

/-- The last index, and a point that no entry equals. -/
theorem witness_DecodeFindsTheLeastIndex :
    ((builtS5 Operands.zero).mapValid = true ∧ (builtS5 Operands.zero).orderN.toNat ≤ (builtS5 Operands.zero).mapDepth)
      ∧ (2 < (builtS5 Operands.zero).orderN.toNat ∧ mapRead (builtS5 Operands.zero) 2 = ⟨2#32, 4#32⟩
          ∧ ∀ j, j < 2 → mapRead (builtS5 Operands.zero) j ≠ ⟨2#32, 4#32⟩)
      ∧ ∀ j, j < (builtS5 Operands.zero).orderN.toNat → mapRead (builtS5 Operands.zero) j ≠ ⟨0#32, 1#32⟩ := by
  decide +kernel

/-- An (unreachable) state with N above MAP_DEPTH: the entry at MAP_DEPTH, and a point that no existing entry equals. -/
theorem witness_AbsentMapEntryFaults :
    ({ builtS5 ⟨2#32, 0#32, 0#32, 0#32, 0#32⟩ with mapcap := 2#32 }).mapDepth
        ≤ ({ builtS5 ⟨2#32, 0#32, 0#32, 0#32, 0#32⟩ with mapcap := 2#32 }).snap.op0.toNat
      ∧ ({ builtS5 ⟨2#32, 0#32, 0#32, 0#32, 0#32⟩ with mapcap := 2#32 }).snap.op0.toNat
          < ({ builtS5 ⟨2#32, 0#32, 0#32, 0#32, 0#32⟩ with mapcap := 2#32 }).orderN.toNat
      ∧ ({ builtS5 ⟨2#32, 4#32, 0#32, 0#32, 0#32⟩ with mapcap := 2#32 }).mapDepth
          < ({ builtS5 ⟨2#32, 4#32, 0#32, 0#32, 0#32⟩ with mapcap := 2#32 }).orderN.toNat
      ∧ (∀ j, j < 2 → mapRead { builtS5 ⟨2#32, 4#32, 0#32, 0#32, 0#32⟩ with mapcap := 2#32 } j ≠ ⟨2#32, 4#32⟩) := by
  decide +kernel

theorem witness_NotReadyExactlyWithoutTheNeededFlag :
    ready .keygen (onCurve curveS5 Operands.zero) = false ∧ ready .isValid (onCurve curveS5 Operands.zero) = true
      ∧ (∃ t, exec .isValid (onCurve curveS5 Operands.zero) = .next t) ∧ Instr.sqrt = .sqrt := ⟨rfl, rfl, ⟨_, rfl⟩, rfl⟩

theorem witness_ErrorsWriteNothing :
    (∃ t, exec .keygen (onCurve curveS5 Operands.zero) = .next t ∧ t.errCode ≠ .noError)
      ∧ ∃ t, completeWord 0x12#32 State.reset = .next t ∧ t.errCode ≠ .noError := ⟨⟨_, rfl, by decide⟩, ⟨_, rfl, by decide⟩⟩

theorem witness_ErrorCodesAreThoseOfTheTable :
    (∃ t, exec .keygen (onCurve curveS5 Operands.zero) = .next t)
      ∧ ∃ t, decode 0x80000004#32 = .error .reservedBitsSet ∧ completeWord 0x80000004#32 State.reset = .next t :=
  ⟨⟨_, rfl⟩, ⟨_, by decide, rfl⟩⟩

theorem witness_CompletionFrameOfEveryCommand :
    (∃ t, exec .nop State.reset = .next t) ∧ (0 : Fin 4) ∉ resultSlots .nop ∧ (3 : Fin 4) ∉ resultSlots .add
      ∧ (∃ t, decode 0x12#32 = .error .opcodeUnassigned ∧ completeWord 0x12#32 State.reset = .next t)
      ∧ ∃ t, completeWord 0x00#32 State.reset = .next t :=
  ⟨⟨_, rfl⟩, by decide, by decide, ⟨_, by decide, rfl⟩, ⟨_, rfl⟩⟩

theorem witness_ConfigurationWrittenByLoadsOnly :
    (∃ t, exec .nop State.reset = .next t) ∧ Instr.nop ≠ .curveLoad ∧ Instr.nop ≠ .cipherLoad ∧ Instr.nop ≠ .mapBuild
      ∧ ∃ t, exec .mapBuild (onCurve curveS5 Operands.zero) = .next t := ⟨⟨_, rfl⟩, by decide, by decide, by decide, ⟨_, rfl⟩⟩

/-- A step that clears CURVE_VALID, and one that sets it and changes the curve registers. -/
theorem witness_CurveChangesByLoadOrResetOnly :
    (∃ t, step (busyS5 0#32 [.reset]) = .next t ∧ (busyS5 0#32 [.reset]).curveValid = true ∧ t.curveValid = false)
      ∧ ∃ t, nextState (step { atReset ⟨1#32, 1#32, 5#32, 0#32, 0#32⟩ with pending := some 3#32 }) = some t
          ∧ (atReset ⟨1#32, 1#32, 5#32, 0#32, 0#32⟩).curveValid = false ∧ t.curveValid = true
          ∧ t.curve ≠ (atReset ⟨1#32, 1#32, 5#32, 0#32, 0#32⟩).curve := by
  refine ⟨⟨_, rfl, rfl, rfl⟩, _, rfl, rfl, ?_, ?_⟩ <;> decide +kernel

theorem witness_InvariantsHoldAtReset : 256 ≤ (256#32).toNat := by decide

theorem witness_StepKeepsInvariants : ∃ t, EngineInv (busyS5 0#32 []) ∧ step (busyS5 0#32 []) = .next t :=
  ⟨_, witness_EngineInv _ _, rfl⟩

theorem witness_ReachableStatesSatisfyInvariants :
    ∃ t, 256 ≤ (256#32).toNat
      ∧ Host.Core.run Sys2Proof.core 2 { State.reset with mapcap := 256#32, schedule := [wordWrite 0x0C#8 0#32, .engine] } = .next t :=
  ⟨_, by decide, rfl⟩

theorem witness_NothingStopsTheEngine : EngineInv (busyS5 0#32 []) := witness_EngineInv _ _

/-- Three valid points of S5, one with an order that ORDER finds. -/
theorem witness_ValidPointsFormAGroup :
    CurveSound curveS5 ∧ valid curveS5 ⟨2#32, 1#32⟩ = true ∧ valid curveS5 ⟨0#32, 1#32⟩ = true
      ∧ valid curveS5 ⟨3#32, 4#32⟩ = true ∧ ecOrder curveS5 ⟨2#32, 1#32⟩ = some 3 :=
  ⟨witness_CurveSound, by decide +kernel, by decide +kernel, by decide +kernel, by decide +kernel⟩

theorem witness_BuiltMapIsBijective :
    EngineInv (busyS5 0#32 []) ∧ (busyS5 0#32 []).mapValid = true ∧ 1 < 2 ∧ 2 < (busyS5 0#32 []).orderN.toNat :=
  ⟨witness_EngineInv _ _, rfl, by decide, by decide⟩

theorem witness_EncodingRoundTrip :
    EngineInv (busyS5 0#32 []) ∧ (busyS5 0#32 []).mapValid = true ∧ (busyS5 0#32 []).snap.op0.toNat < (busyS5 0#32 []).orderN.toNat :=
  ⟨witness_EngineInv _ _, rfl, by decide⟩

theorem witness_ElGamalRoundTrip :
    EngineInv (busyS5 0#32 []) ∧ (busyS5 0#32 []).cipherValid = true ∧ valid (busyS5 0#32 []).curve ⟨0#32, 1#32⟩ = true :=
  ⟨witness_EngineInv _ _, rfl, by decide +kernel⟩

end Sys2Proof.Tests
end

section
/-! What a step of the machine can do to the set-up of the engine (configuration, valid flags, MAP RAM, MAPCAP), said once, and
what follows from it: the invariants of `10_state.md` R44 and the frames of R30, R34 and R36 to R40. -/

namespace Sys2Proof.Machine

/-! ### The frame of everything but the load commands -/

/-- Everything that `10_state.md` R30 to R32, R34 and R37 to R40 leave to the load commands and to reset is as before: the
configuration, the valid flags, MAPCAP, and the MAP RAM with the counter that selects its unwritten entries. -/
structure SetupFrame (s t : State) : Prop extends ConfigFrame s t where
  mapRam : t.mapRam = s.mapRam
  mapcap : t.mapcap = s.mapcap
  resets : t.resets = s.resets

theorem SetupFrame.refl (s : State) : SetupFrame s s := ⟨⟨rfl, rfl, rfl, rfl, rfl, rfl⟩, rfl, rfl, rfl⟩

/-- The completion itself writes ERR_CODE, BUSY and DONE only (`44_command_control.md` R263). -/
theorem SetupFrame.complete {s t : State} (h : SetupFrame s t) (e : ErrCode) : SetupFrame s (t.complete e) :=
  ⟨⟨h.curve, h.gen, h.orderN, h.curveValid, h.cipherValid, h.mapValid⟩, h.mapRam, h.mapcap, h.resets⟩

theorem mapFrame_of_mapRam {s t : State} (hm : t.mapRam = s.mapRam) (hr : t.resets = s.resets) : MapFrame s t :=
  fun j => by rw [mapRead, mapRead, hm, hr]

theorem SetupFrame.mapFrame {s t : State} (h : SetupFrame s t) : MapFrame s t :=
  mapFrame_of_mapRam h.mapRam h.resets

/-- What is still scheduled is no part of the set-up. -/
theorem SetupFrame.of_schedule {s t : State} {es : List Event} (h : SetupFrame { s with schedule := es } t) : SetupFrame s t :=
  ⟨⟨h.curve, h.gen, h.orderN, h.curveValid, h.cipherValid, h.mapValid⟩, h.mapRam, h.mapcap, h.resets⟩

/-- A command other than the load commands writes no more than result registers (`30_encoding.md` R95). -/
theorem Writes.setupFrame {i : Instr} {s u : State} (h : Writes i s u) (h1 : i ≠ .curveLoad) (h2 : i ≠ .cipherLoad)
    (h3 : i ≠ .mapBuild) : SetupFrame s u := by
  cases i
  case curveLoad => exact absurd rfl h1
  case cipherLoad => exact absurd rfl h2
  case mapBuild => exact absurd rfl h3
  case nop => obtain rfl := h; exact .refl _
  case inv | isValid | order | decodePoint => obtain ⟨v, rfl⟩ := h; exact ⟨⟨rfl, rfl, rfl, rfl, rfl, rfl⟩, rfl, rfl, rfl⟩
  case sqrt | neg | add | dbl | smul | keygen | decrypt | encodeSymbol =>
    obtain ⟨v, w, rfl⟩ := h; exact ⟨⟨rfl, rfl, rfl, rfl, rfl, rfl⟩, rfl, rfl, rfl⟩
  case atX | encrypt => obtain ⟨v, w, x, y, rfl⟩ := h; exact ⟨⟨rfl, rfl, rfl, rfl, rfl, rfl⟩, rfl, rfl, rfl⟩

/-- What a completed command can do to the set-up: nothing, or the writes of one of the three load commands. -/
theorem exec_setup_cases {i : Instr} {s t : State} (h : exec i s = .next t) :
    SetupFrame s t
      ∨ ((i = .curveLoad ∨ i = .cipherLoad ∨ i = .mapBuild) ∧ ∃ u, Writes i s u ∧ t = u.complete .noError) := by
  obtain ⟨e, -, rfl⟩ | ⟨u, hu, rfl⟩ := exec_next_cases h
  · exact .inl ((SetupFrame.refl s).complete e)
  · by_cases h1 : i = .curveLoad
    · exact .inr ⟨.inl h1, u, hu, rfl⟩
    by_cases h2 : i = .cipherLoad
    · exact .inr ⟨.inr (.inl h2), u, hu, rfl⟩
    by_cases h3 : i = .mapBuild
    · exact .inr ⟨.inr (.inr h3), u, hu, rfl⟩
    · exact .inl ((hu.setupFrame h1 h2 h3).complete _)

/-- No command writes MAPCAP (`10_state.md` R40). -/
theorem exec_mapcap {i : Instr} {s t : State} (h : exec i s = .next t) : t.mapcap = s.mapcap := by
  obtain hf | ⟨rfl | rfl | rfl, u, hu, rfl⟩ := exec_setup_cases h
  · exact hf.mapcap
  · obtain ⟨-, rfl⟩ := hu; rfl
  · obtain ⟨-, n, -, -, -, rfl⟩ := hu; rfl
  · obtain ⟨-, -, rfl⟩ := hu; rfl

/-- A completion ends with nothing pending (`44_command_control.md` R263). -/
theorem exec_pending {i : Instr} {s t : State} (h : exec i s = .next t) : t.pending = none := by
  obtain ⟨e, -, rfl⟩ | ⟨u, -, rfl⟩ := exec_next_cases h <;> rfl

/-! ### One step, by what it does -/

/-- What no admitted host access changes (`10_state.md` R34, R36 to R40). -/
structure HostFrame (s t : State) : Prop extends SetupFrame s t where
  res0 : t.res0 = s.res0
  res1 : t.res1 = s.res1
  res2 : t.res2 = s.res2
  res3 : t.res3 = s.res3
  schedule : t.schedule = s.schedule

theorem busWrite_frame (off : BitVec 8) (v : Word) (s : State) : HostFrame s (busWrite off v s) := by
  obtain h | h | h | h | ⟨o, h⟩ := busWrite_cases off v s <;> rw [h]
  case inr.inr.inr.inl =>
    obtain ⟨-, h⟩ | ⟨w, -, h⟩ := writeCmd_cases v s <;> rw [h] <;>
      exact ⟨⟨⟨rfl, rfl, rfl, rfl, rfl, rfl⟩, rfl, rfl, rfl⟩, rfl, rfl, rfl, rfl, rfl⟩
  all_goals exact ⟨⟨⟨rfl, rfl, rfl, rfl, rfl, rfl⟩, rfl, rfl, rfl⟩, rfl, rfl, rfl, rfl, rfl⟩

theorem hostAccess_frame {a : Access} {s t : State} (h : hostAccess a s = .next t) : HostFrame s t := by
  obtain ⟨-, ⟨-, rfl⟩ | ⟨v, -, rfl⟩⟩ := hostAccess_eq_next.mp h
  · exact ⟨⟨⟨rfl, rfl, rfl, rfl, rfl, rfl⟩, rfl, rfl, rfl⟩, rfl, rfl, rfl, rfl, rfl⟩
  · exact busWrite_frame _ _ _

/-- A turn of the engine that answers a next state: idle, the completion of an illegal word, or that of a command. -/
theorem engineTurn_next_cases {s t : State} (h : engineTurn s = .next t) :
    (s.pending = none ∧ t = s) ∨ (s.busy = true ∧ t = s.complete .illegalCommand)
      ∨ ∃ w i, s.pending = some w ∧ decode w = .ok i ∧ exec i s = .next t := by
  obtain ⟨hp, he⟩ | ⟨w, hp, he⟩ := engineTurn_cases s <;> rw [he] at h
  · exact .inl ⟨hp, (Host.Outcome.next.inj h).symm⟩
  · obtain ⟨i, hd, hc⟩ | ⟨-, hc⟩ := completeWord_eq (w := w) (s := s) <;> rw [hc] at h
    · exact .inr (.inr ⟨w, i, hp, hd, h⟩)
    · exact .inr (.inl ⟨by simp [State.busy, hp], (Host.Outcome.next.inj h).symm⟩)

/-- The step performs the event that is scheduled next. -/
theorem step_event {s : State} {e : Event} {rest : List Event} (hs : s.schedule = e :: rest) :
    step s = perform e { s with schedule := rest } := by
  rw [step, hs]

/-- A step that answers a next state, by who moves: the engine, the host or the reset input. -/
theorem step_next_cases {s t : State} (h : step s = .next t) :
    (∃ es, engineTurn { s with schedule := es } = .next t)
      ∨ (∃ a rest, s.schedule = .access a :: rest ∧ hostAccess a { s with schedule := rest } = .next t)
      ∨ ∃ rest, s.schedule = .reset :: rest ∧ t = resetInput { s with schedule := rest } := by
  obtain ⟨-, hs⟩ | ⟨rest, -, hs⟩ | ⟨a, rest, hsch, hs⟩ | ⟨rest, hsch, hs⟩ := step_cases s <;> rw [hs] at h
  · exact .inl ⟨s.schedule, h⟩
  · exact .inl ⟨rest, h⟩
  · exact .inr (.inl ⟨a, rest, hsch, h⟩)
  · exact .inr (.inr ⟨rest, hsch, (Host.Outcome.next.inj h).symm⟩)

/-- What a step can do to the set-up: nothing, the writes of a load command that was pending, or the reset. -/
theorem step_setup_cases {s t : State} (h : step s = .next t) :
    SetupFrame s t
      ∨ (∃ w i es, s.pending = some w ∧ decode w = .ok i ∧ (i = .curveLoad ∨ i = .cipherLoad ∨ i = .mapBuild)
          ∧ ∃ u, Writes i { s with schedule := es } u ∧ t = u.complete .noError)
      ∨ ∃ rest, s.schedule = .reset :: rest ∧ t = resetInput { s with schedule := rest } := by
  obtain ⟨es, he⟩ | ⟨a, rest, -, ha⟩ | hr := step_next_cases h
  · obtain ⟨-, rfl⟩ | ⟨-, rfl⟩ | ⟨w, i, hp, hd, hi⟩ := engineTurn_next_cases he
    · exact .inl (SetupFrame.refl _).of_schedule
    · exact .inl ((SetupFrame.refl _).complete _).of_schedule
    · obtain hf | ⟨hload, hu⟩ := exec_setup_cases hi
      · exact .inl hf.of_schedule
      · exact .inr (.inl ⟨w, i, es, hp, hd, hload, hu⟩)
  · exact .inl (hostAccess_frame ha).toSetupFrame.of_schedule
  · exact .inr (.inr hr)

/-! ### The invariants of `10_state.md` R44 -/

/-- The invariants speak of the set-up and, while the engine is busy, of DONE and ERR_CODE. -/
theorem EngineInv.of_setupFrame {s t : State} (hs : EngineInv s) (hf : SetupFrame s t)
    (hb : t.busy = true → t.done = false ∧ t.errCode = .noError) : EngineInv t := by
  obtain ⟨⟨hc, hg, hn, hcv, hci, hmv⟩, hm, hd, -⟩ := hf
  exact {
    cipher_needs_curve := by rw [hci, hcv]; exact hs.cipher_needs_curve
    map_needs_cipher := by rw [hmv, hci]; exact hs.map_needs_cipher
    curve := by rw [hcv, hc]; exact hs.curve
    cipher := by rw [hci, hc, hg, hn]; exact hs.cipher
    map_fits := by rw [hmv, hn, State.mapDepth, hd]; exact hs.map_fits
    map_built := by rw [hmv, hn, hm, hc, hg]; exact hs.map_built
    busy_clean := hb
    depth := by rw [State.mapDepth, hd]; exact hs.depth
    ram := by rw [hm]; exact hs.ram }

/-- A write to a register keeps DONE and ERR_CODE clear while the engine is busy. -/
theorem busWrite_busy_clean {s : State} (hs : s.busy = true → s.done = false ∧ s.errCode = .noError) (off : BitVec 8) (v : Word) :
    (busWrite off v s).busy = true → (busWrite off v s).done = false ∧ (busWrite off v s).errCode = .noError := by
  obtain h | h | h | h | ⟨o, h⟩ := busWrite_cases off v s <;> rw [h]
  case inr.inr.inl => exact fun hb => ⟨by rw [writeStatus_done, (hs hb).1]; rfl, (hs hb).2⟩
  case inr.inr.inr.inl =>
    obtain ⟨-, h⟩ | ⟨w, -, h⟩ := writeCmd_cases v s <;> rw [h]
    · exact fun _ => ⟨rfl, rfl⟩
    · exact hs
  all_goals exact hs

theorem EngineInv.hostAccess {a : Access} {s t : State} (hs : EngineInv s) (h : hostAccess a s = .next t) : EngineInv t := by
  refine hs.of_setupFrame (hostAccess_frame h).toSetupFrame ?_
  obtain ⟨-, ⟨-, rfl⟩ | ⟨v, -, rfl⟩⟩ := hostAccess_eq_next.mp h
  · exact hs.busy_clean
  · exact busWrite_busy_clean hs.busy_clean _ _

theorem EngineInv.withSchedule {s : State} (hs : EngineInv s) (es : List Event) : EngineInv { s with schedule := es } :=
  hs.of_setupFrame ⟨⟨rfl, rfl, rfl, rfl, rfl, rfl⟩, rfl, rfl, rfl⟩ hs.busy_clean

theorem EngineInv.complete {s : State} (hs : EngineInv s) (e : ErrCode) : EngineInv (s.complete e) :=
  hs.of_setupFrame ((SetupFrame.refl s).complete e) nofun

/-- With no valid flag, nothing pending and no MAP RAM entry written, all that the invariants ask for is a legal MAP_DEPTH. -/
theorem EngineInv.of_cleared {s : State} (hcv : s.curveValid = false) (hci : s.cipherValid = false) (hmv : s.mapValid = false)
    (hp : s.pending = none) (hm : s.mapRam = []) (hd : Config.mapDepthMin ≤ s.mapDepth) : EngineInv s where
  cipher_needs_curve := by simp [hci]
  map_needs_cipher := by simp [hmv]
  curve := by simp [hcv]
  cipher := by simp [hci]
  map_fits := by simp [hmv]
  map_built := by simp [hmv]
  busy_clean := by simp [State.busy, hp]
  depth := hd
  ram := by rw [hm]; rfl

theorem EngineInv.resetInput {s : State} (hs : EngineInv s) : EngineInv (resetInput s) :=
  .of_cleared rfl rfl rfl rfl rfl hs.depth

/-- A sound curve, with the cipher context and the map cleared (`41_curve_group.md` R141). -/
theorem EngineInv.installCurve {s : State} (hs : EngineInv s) {c : Curve} (hc : CurveSound c) (e : ErrCode) :
    EngineInv ((s.installCurve c).complete e) where
  cipher_needs_curve := nofun
  map_needs_cipher := nofun
  curve _ := hc
  cipher := nofun
  map_fits := nofun
  map_built := nofun
  busy_clean := nofun
  depth := hs.depth
  ram := hs.ram

/-- The order that CIPHER_LOAD finds for a valid point other than IDENT makes a sound cipher context (`42_elgamal.md` R201). -/
theorem CipherSound.of_ecOrder {c : Curve} {g : Point} {n : Nat} (hv : valid c g = true) (hg : g ≠ ident)
    (hn : ecOrder c g = some n) : CipherSound c g (toWord n).toNat := by
  obtain ⟨hpos, hle, hmul, hleast⟩ := ecOrder_eq_some.mp hn
  rw [toWord_toNat (hle.trans_lt c.q.isLt)]
  exact ⟨hv, hg, hpos, hle, hmul, hleast⟩

theorem EngineInv.installCipher {s : State} (hs : EngineInv s) (hcv : s.curveValid = true) {g : Point} {n : Word}
    (hg : CipherSound s.curve g n.toNat) (v : Word) (e : ErrCode) :
    EngineInv (((s.installCipher g n).setRes0 v).complete e) where
  cipher_needs_curve _ := hcv
  map_needs_cipher := nofun
  curve := hs.curve
  cipher _ := hg
  map_fits := nofun
  map_built := nofun
  busy_clean := nofun
  depth := hs.depth
  ram := hs.ram

/-- The loop of MAP_BUILD leaves the multiples of the generator in the entries below N (`43_point_encoding.md` R231). -/
theorem EngineInv.installMap {s : State} (hs : EngineInv s) (hci : s.cipherValid = true) (hn : s.orderN.toNat ≤ s.mapDepth)
    (e : ErrCode) : EngineInv ((s.installMap (mapping s)).complete e) where
  cipher_needs_curve := hs.cipher_needs_curve
  map_needs_cipher _ := hci
  curve := hs.curve
  cipher := hs.cipher
  map_fits _ := hn
  map_built _ i hi := (Memory.read_fill _ _ _ i).trans (if_pos hi)
  busy_clean := nofun
  depth := hs.depth
  ram := Memory.wf_fill _ _ hs.ram

theorem EngineInv.exec {i : Instr} {s t : State} (hs : EngineInv s) (h : exec i s = .next t) : EngineInv t := by
  obtain hf | ⟨rfl | rfl | rfl, u, hu, rfl⟩ := exec_setup_cases h
  · exact hs.of_setupFrame hf (by simp [State.busy, exec_pending h])
  · obtain ⟨hc, rfl⟩ := hu
    exact hs.installCurve (curveOk_iff.mp hc) _
  · obtain ⟨hcv, n, hv, hg, hn, rfl⟩ := hu
    exact hs.installCipher hcv (.of_ecOrder hv hg hn) _ _
  · obtain ⟨hci, hn, rfl⟩ := hu
    exact hs.installMap hci hn _

theorem EngineInv.engineTurn {s t : State} (hs : EngineInv s) (h : engineTurn s = .next t) : EngineInv t := by
  obtain ⟨-, rfl⟩ | ⟨-, rfl⟩ | ⟨w, i, -, -, hi⟩ := engineTurn_next_cases h
  · exact hs
  · exact hs.complete _
  · exact hs.exec hi

theorem EngineInv.step {s t : State} (hs : EngineInv s) (h : step s = .next t) : EngineInv t := by
  obtain ⟨es, he⟩ | ⟨a, rest, -, ha⟩ | ⟨rest, -, rfl⟩ := step_next_cases h
  · exact (hs.withSchedule es).engineTurn he
  · exact (hs.withSchedule rest).hostAccess ha
  · exact (hs.withSchedule rest).resetInput

/-- A predicate that every step keeps holds at the end of every run from a state that satisfies it. -/
theorem run_keeps {P : State → Prop} (hstep : ∀ s t, P s → step s = .next t → P t) {n : Nat} {s t : State} (hs : P s)
    (h : Host.Core.run Sys2Proof.core n s = .next t) : P t := by
  induction n generalizing s with
  | zero => cases h; exact hs
  | succ n ih =>
    simp only [Host.Core.run, Sys2Proof.core] at h
    cases hu : step s with
    | next u => rw [hu] at h; exact ih (hstep s u hs hu) h
    | fault r => rw [hu] at h; cases h
    | refused r => rw [hu] at h; cases h

/-- Settles O54: who moves in the step decides, and each mover keeps the invariants. -/
theorem stepKeepsInvariants : Obligations.StepKeepsInvariants :=
  fun _ _ hs h => hs.step h

/-- Settles O53: after reset no valid flag is set and nothing is pending. -/
theorem invariantsHoldAtReset : Obligations.InvariantsHoldAtReset :=
  fun _ _ hd => .of_cleared rfl rfl rfl rfl rfl hd

/-- Settles O55: the invariants hold at reset and every step keeps them. -/
theorem reachableStatesSatisfyInvariants : Obligations.ReachableStatesSatisfyInvariants :=
  fun d es _ _ hd h => run_keeps stepKeepsInvariants (invariantsHoldAtReset d es hd) h

end Sys2Proof.Machine
end

section
/-! The set-up of the engine over commands, host accesses and whole steps (`10_state.md` R23, R28, R30, R34, R36 to R40). -/

namespace Sys2Proof.Machine

/-! ### Commands -/

/-- Settles O51: the frame of every command but the load commands, and the writes of those three. -/
theorem configurationWrittenByLoadsOnly : Obligations.ConfigurationWrittenByLoadsOnly := by
  intro i s t h
  obtain hf | ⟨rfl | rfl | rfl, u, hu, rfl⟩ := exec_setup_cases h
  · exact ⟨fun _ _ _ => hf.toConfigFrame, fun _ => hf.mapFrame,
      fun _ => ⟨hf.curve, hf.curveValid⟩, fun _ => ⟨hf.gen, hf.orderN, hf.cipherValid⟩⟩
  · obtain ⟨-, rfl⟩ := hu
    exact ⟨fun hne => absurd rfl hne, fun _ => mapFrame_of_mapRam rfl rfl, fun hne => absurd rfl hne, nofun⟩
  · obtain ⟨-, n, -, -, -, rfl⟩ := hu
    exact ⟨fun _ hne => absurd rfl hne, fun _ => mapFrame_of_mapRam rfl rfl, fun _ => ⟨rfl, rfl⟩, nofun⟩
  · obtain ⟨-, -, rfl⟩ := hu
    exact ⟨fun _ _ hne => absurd rfl hne, fun hne => absurd rfl hne, fun _ => ⟨rfl, rfl⟩, fun _ => ⟨rfl, rfl, rfl⟩⟩

/-! ### Host accesses -/

theorem HostFrame.resultFrame {s t : State} (h : HostFrame s t) : ResultFrame s t
  | 0 => h.res0
  | 1 => h.res1
  | 2 => h.res2
  | 3 => h.res3

/-- While a command is pending, no write to a register touches it, its operands or CMD (`44_command_control.md` R261, R262). -/
theorem busWrite_pending {s : State} (hb : s.busy = true) (off : BitVec 8) (v : Word) :
    (busWrite off v s).pending = s.pending ∧ (busWrite off v s).snap = s.snap ∧ (busWrite off v s).cmd = s.cmd := by
  obtain h | h | h | h | ⟨o, h⟩ := busWrite_cases off v s <;> rw [h]
  case inr.inr.inr.inl =>
    obtain ⟨hp, -⟩ | ⟨w, -, h⟩ := writeCmd_cases v s
    · simp [State.busy, hp] at hb
    · rw [h]; exact ⟨rfl, rfl, rfl⟩
  all_goals exact ⟨rfl, rfl, rfl⟩

theorem hostAccess_pending {a : Access} {s t : State} (h : hostAccess a s = .next t) (hb : s.busy = true) :
    t.pending = s.pending ∧ t.snap = s.snap ∧ t.cmd = s.cmd := by
  obtain ⟨-, ⟨-, rfl⟩ | ⟨v, -, rfl⟩⟩ := hostAccess_eq_next.mp h
  · exact ⟨rfl, rfl, rfl⟩
  · exact busWrite_pending hb _ _

/-- Settles O20: the step is the access, and every admitted access keeps the frame. -/
theorem hostAccessFrame : Obligations.HostAccessFrame := by
  intro s t a rest hs h
  have ha : hostAccess a { s with schedule := rest } = .next t := (step_event hs).symm.trans h
  have hf := hostAccess_frame ha
  have hset : SetupFrame s t := hf.toSetupFrame.of_schedule
  exact ⟨hf.resultFrame, hset.toConfigFrame, hset.mapFrame, hset.mapcap, hset.resets, hf.schedule,
    hostAccess_pending (s := { s with schedule := rest }) ha⟩

/-! ### Whole steps -/

theorem engineTurn_mapcap {s t : State} (h : engineTurn s = .next t) : t.mapcap = s.mapcap := by
  obtain ⟨-, rfl⟩ | ⟨-, rfl⟩ | ⟨w, i, -, -, hi⟩ := engineTurn_next_cases h
  · rfl
  · rfl
  · exact exec_mapcap hi

theorem step_mapcap {s t : State} (h : step s = .next t) : t.mapcap = s.mapcap := by
  obtain ⟨es, he⟩ | ⟨a, rest, -, ha⟩ | ⟨rest, -, rfl⟩ := step_next_cases h
  · exact (engineTurn_mapcap he).trans rfl
  · exact (hostAccess_frame ha).mapcap
  · rfl

/-- Settles O18: ID is a constant, and whoever moves leaves MAPCAP. -/
theorem identityAndCapacityNeverChange : Obligations.IdentityAndCapacityNeverChange :=
  fun _ _ h => ⟨rfl, step_mapcap h, congrArg BitVec.toNat (step_mapcap h)⟩

/-- What a step can do to the curve: nothing, a successful CURVE_LOAD, or the reset (`10_state.md` R30, R37). -/
theorem step_curve_cases {s t : State} (h : step s = .next t) :
    (t.curve = s.curve ∧ t.curveValid = s.curveValid)
      ∨ ((∃ w, s.pending = some w ∧ decode w = .ok .curveLoad) ∧ t.errCode = .noError ∧ t.curveValid = true
          ∧ CurveSound t.curve)
      ∨ ∃ rest, s.schedule = .reset :: rest ∧ t = resetInput { s with schedule := rest } := by
  obtain hf | ⟨w, i, es, hp, hd, rfl | rfl | rfl, u, hu, rfl⟩ | hr := step_setup_cases h
  · exact .inl ⟨hf.curve, hf.curveValid⟩
  · obtain ⟨hc, rfl⟩ := hu
    exact .inr (.inl ⟨⟨w, hp, hd⟩, rfl, rfl, curveOk_iff.mp hc⟩)
  · obtain ⟨-, n, -, -, -, rfl⟩ := hu
    exact .inl ⟨rfl, rfl⟩
  · obtain ⟨-, -, rfl⟩ := hu
    exact .inl ⟨rfl, rfl⟩
  · exact .inr (.inr hr)

/-- Settles O52: the three cases of what a step does to the curve. -/
theorem curveChangesByLoadOrResetOnly : Obligations.CurveChangesByLoadOrResetOnly := by
  intro s t h
  obtain ⟨hc, hv⟩ | ⟨hp, he, hv, hc⟩ | ⟨rest, hs, rfl⟩ := step_curve_cases h
  · exact ⟨fun h1 h0 => by simp [hv, h1] at h0, fun h0 h1 => by simp [hv, h0] at h1, fun hne => absurd hc hne⟩
  · exact ⟨fun _ h0 => by simp [hv] at h0, fun _ _ => ⟨hp, he, hc⟩, fun _ => .inr ⟨hp, he⟩⟩
  · exact ⟨fun _ _ => ⟨rest, hs⟩, fun _ hf => absurd hf Bool.false_ne_true, fun _ => .inl ⟨rest, hs⟩⟩

end Sys2Proof.Machine
end

section
/-! The register window (`10_state.md` R22): which register stands at an offset, what a read returns bit by bit, and what a write
does, with STATUS (R25 to R29), CTRL (R24), the operand registers (R35) and what is read-only or reserved (R43). -/

namespace Sys2Proof.Machine

/-! ### Offsets -/

/-- Every register stands at its one offset, and at no other offset stands a register. -/
theorem regAt_eq_some {off : BitVec 8} {r : Reg} : regAt off = some r ↔ off = regOffset r := by
  constructor
  · intro h
    unfold regAt at h
    split at h
    case h_21 => cases h
    all_goals
      obtain rfl := Option.some.inj h
      exact BitVec.eq_of_toNat_eq ‹_›
  · rintro rfl
    cases r <;> rfl

/-- The reserved offsets of R22 hold no register. -/
theorem regAt_reserved {off : BitVec 8} (h : (0x24 ≤ off.toNat ∧ off.toNat ≤ 0x2C) ∨ 0x5C ≤ off.toNat) : regAt off = none := by
  cases hr : regAt off with
  | none => rfl
  | some r =>
    obtain rfl := regAt_eq_some.mp hr
    cases r <;> simp [regOffset] at h

theorem busRead_reserved {off : BitVec 8} (h : (0x24 ≤ off.toNat ∧ off.toNat ≤ 0x2C) ∨ 0x5C ≤ off.toNat) (s : State) :
    busRead off s = 0#32 := by
  rw [busRead, regAt_reserved h]

/-- Away from CTRL, STATUS, CMD and OP0 to OP4 a write is ignored (R43). -/
theorem busWrite_ignored {off : BitVec 8} (h : off.toNat ∉ [0x04, 0x08, 0x0C, 0x10, 0x14, 0x18, 0x1C, 0x20]) (v : Word) (s : State) :
    busWrite off v s = s := by
  unfold busWrite
  cases hr : regAt off with
  | none => rfl
  | some r =>
    obtain rfl := regAt_eq_some.mp hr
    cases r
    case ctrl | status | cmd | op0 | op1 | op2 | op3 | op4 => exact absurd (by decide) h
    all_goals rfl

/-! ### CTRL and STATUS, bit by bit -/

theorem busRead_ctrl (s : State) : busRead 0x04#8 s = if s.ie then 1#32 else 0#32 := by
  show s.ctrlWord = _
  unfold State.ctrlWord
  cases s.ie <;> rfl

theorem busRead_ctrl_reserved (s : State) {k : Nat} (hk : 1 ≤ k) : (busRead 0x04#8 s).getLsbD k = false := by
  rw [busRead_ctrl]
  cases s.ie
  · simp
  · simp [BitVec.getLsbD_one, show k ≠ 0 by omega]

theorem err_eq (s : State) : s.err = (s.errCode != .noError) := by
  unfold State.err
  cases s.errCode <;> rfl

/-- Bit `k` of STATUS (R25). -/
theorem busRead_status_bit (s : State) (k : Nat) :
    (busRead 0x08#8 s).getLsbD k =
      match k with
      | 0 => s.pending.isSome
      | 1 => s.done
      | 2 => s.ovr
      | 3 => s.errCode != .noError
      | 4 => s.curveValid
      | 5 => s.cipherValid
      | 6 => s.mapValid
      | 7 => false
      | k + 8 => s.errCode.code.getLsbD k := by
  show ((((((((((0#16 ++ s.errCode.code).concat false).concat s.mapValid).concat s.cipherValid).concat s.curveValid).concat
    s.err).concat s.ovr).concat s.done).concat s.busy).getLsbD k) = _
  rw [err_eq]
  split
  case h_9 j =>
    simp only [BitVec.getLsbD_concat_succ, BitVec.getLsbD_append]
    split_ifs with hj
    · rfl
    · rw [BitVec.getLsbD_zero, BitVec.getLsbD_of_ge _ _ (not_lt.mp hj)]
  all_goals simp [State.busy]

theorem busRead_status_reserved (s : State) {k : Nat} (hk : k = 7 ∨ 16 ≤ k) : (busRead 0x08#8 s).getLsbD k = false := by
  obtain rfl | hk := hk
  · exact busRead_status_bit s 7
  · obtain ⟨j, rfl⟩ := Nat.exists_eq_add_of_le' (show 8 ≤ k by omega)
    rw [busRead_status_bit]
    exact BitVec.getLsbD_of_ge _ _ (by omega)

/-- A write to STATUS clears DONE and OVR where it carries a 1 (R25). -/
theorem writeStatus_eq (v : Word) (s : State) :
    writeStatus v s = { s with
      done := if v.getLsbD 1 then false else s.done
      ovr := if v.getLsbD 2 then false else s.ovr } := by
  simp [writeStatus, Bool.and_comm]

/-- Settles O11: each bit of a read by the layout of STATUS, the write by its effect on DONE and OVR. -/
theorem statusRegisterLayoutAndClear : Obligations.StatusRegisterLayoutAndClear := by
  refine ⟨fun s => ⟨busRead_status_bit s 0, busRead_status_bit s 1, busRead_status_bit s 2, busRead_status_bit s 3,
    busRead_status_bit s 4, busRead_status_bit s 5, busRead_status_bit s 6, busRead_status_bit s 7, ?_, ?_⟩, fun s v rest h => ?_⟩
  · refine BitVec.eq_of_getLsbD_eq fun j hj => ?_
    rw [BitVec.getLsbD_extractLsb', decide_eq_true hj, Bool.true_and, Nat.add_comm]
    exact busRead_status_bit s (j + 8)
  · refine BitVec.eq_of_getLsbD_eq fun j hj => ?_
    rw [BitVec.getLsbD_extractLsb', busRead_status_reserved s (.inr (by omega))]
    simp
  · rw [step_wordWrite (by decide) h]
    exact congrArg _ (writeStatus_eq v _)

/-- Settles O12: the read of CTRL, and the admitted write to it. -/
theorem controlRegisterHoldsInterruptEnable : Obligations.ControlRegisterHoldsInterruptEnable :=
  ⟨rfl, fun s => ⟨busRead_ctrl s, rfl⟩, fun _ _ _ h => step_wordWrite (by decide) h⟩

/-- Settles O9: each write is admitted, and the register at its offset is the operand register. -/
theorem operandWriteStoresOnly : Obligations.OperandWriteStoresOnly :=
  fun _ _ _ => ⟨step_wordWrite (by decide), step_wordWrite (by decide), step_wordWrite (by decide),
    step_wordWrite (by decide), step_wordWrite (by decide), rfl, rfl, rfl, rfl, rfl⟩

/-- What a write carries in the reserved bits of CTRL has no effect (R43). -/
theorem writeCtrl_mask (v : Word) (s : State) : writeCtrl (v &&& 0x00000001#32) s = writeCtrl v s := by
  simp [writeCtrl]

/-- What a write carries outside the two write-1-to-clear bits of STATUS has no effect (R25, R43). -/
theorem writeStatus_mask (v : Word) (s : State) : writeStatus (v &&& 0x00000006#32) s = writeStatus v s := by
  simp [writeStatus]

/-- Settles O13: what stands at the offset decides the write and the reserved read, the mask lemmas the reserved bits. -/
theorem readOnlyAndReservedWritesIgnored : Obligations.ReadOnlyAndReservedWritesIgnored := by
  refine ⟨fun s off v rest ho hoff h => ?_, fun s off hoff => busRead_reserved hoff s,
    fun s k => ⟨busRead_ctrl_reserved s, busRead_status_reserved s⟩,
    fun s v => ⟨(writeCtrl_mask v s).symm, (writeStatus_mask v s).symm⟩⟩
  rw [step_wordWrite ho h, busWrite_ignored hoff]

/-- Settles O14: the register at each offset, and the admitted read. -/
theorem registerReadsFollowTheMap : Obligations.RegisterReadsFollowTheMap := by
  intro s
  refine ⟨⟨rfl, busRead_ctrl s, rfl, rfl, rfl, rfl, rfl, rfl, rfl, rfl, rfl, rfl, rfl, rfl, rfl, rfl, rfl, rfl, rfl, rfl⟩,
    fun off hoff => busRead_reserved hoff s, fun off rest ho h => ?_⟩
  rw [step_wordRead ho h, busRead_schedule]

/-! ### OVR -/

/-- A write to CMD sets OVR while the engine is busy, a write to STATUS clears it where it carries a 1 in bit 2, and no other write
touches it (`10_state.md` R28). -/
theorem busWrite_ovr (off : BitVec 8) (v : Word) (s : State) :
    (busWrite off v s).ovr =
      if off = 0x0C#8 then s.ovr || s.busy else if off = 0x08#8 then s.ovr && !v.getLsbD 2 else s.ovr := by
  unfold busWrite
  cases hr : regAt off with
  | none =>
    have hne : ∀ r, off ≠ regOffset r := fun r he => by simp [regAt_eq_some.mpr he] at hr
    rw [if_neg (show off ≠ 0x0C#8 from hne .cmd), if_neg (show off ≠ 0x08#8 from hne .status)]
  | some r =>
    obtain rfl := regAt_eq_some.mp hr
    cases r
    case cmd =>
      obtain ⟨hp, h⟩ | ⟨w, hp, h⟩ := writeCmd_cases v s <;> simp [writeReg, h, State.busy, hp, regOffset]
    all_goals rfl

/-- A completion leaves OVR (`10_state.md` R28). -/
theorem engineTurn_ovr {s t : State} (h : engineTurn s = .next t) : t.ovr = s.ovr := by
  obtain ⟨-, he⟩ | ⟨w, -, he⟩ := engineTurn_cases s <;> rw [he] at h
  · cases h; rfl
  · rw [← completeWord_frame h]; rfl

/-- What a step can do to OVR: nothing, what a write to CMD or STATUS does, or the reset. -/
theorem step_ovr_cases {s t : State} (h : step s = .next t) :
    t.ovr = s.ovr
      ∨ (∃ a v rest, s.schedule = .access a :: rest ∧ a.write = some v ∧ a.offset = 0x0C#8 ∧ t.ovr = (s.ovr || s.busy))
      ∨ (∃ a v rest, s.schedule = .access a :: rest ∧ a.write = some v ∧ a.offset = 0x08#8
          ∧ t.ovr = (s.ovr && !v.getLsbD 2))
      ∨ ∃ rest, s.schedule = .reset :: rest ∧ t.ovr = false := by
  obtain ⟨es, he⟩ | ⟨a, rest, hs, ha⟩ | ⟨rest, hs, rfl⟩ := step_next_cases h
  · exact .inl ((engineTurn_ovr he).trans rfl)
  · obtain ⟨-, ⟨-, rfl⟩ | ⟨v, hw, rfl⟩⟩ := hostAccess_eq_next.mp ha
    · exact .inl rfl
    · have ho := busWrite_ovr a.offset v { s with schedule := rest }
      split_ifs at ho with h1 h2
      · exact .inr (.inl ⟨a, v, rest, hs, hw, h1, ho⟩)
      · exact .inr (.inr (.inl ⟨a, v, rest, hs, hw, h2, ho⟩))
      · exact .inl ho
  · exact .inr (.inr (.inr ⟨rest, hs, rfl⟩))

/-- Settles O19: the first two clauses by what a step can do to OVR, the others by the write or reset that they name. -/
theorem overrunIsSticky : Obligations.OverrunIsSticky := by
  intro s t h
  refine ⟨fun h0 h1 => ?_, fun h1 h0 => ?_, fun v rest hs hb => ?_, fun v rest hs hv => ?_, fun rest hs => ?_⟩
  · obtain ho | ⟨a, v, rest, hs, hw, ha, ho⟩ | ⟨a, v, rest, -, -, -, ho⟩ | ⟨rest, -, ho⟩ := step_ovr_cases h <;>
      rw [h1] at ho
    · rw [h0] at ho; cases ho
    · exact ⟨a, v, rest, hs, ha, hw, by simpa [h0] using ho.symm⟩
    · simp [h0] at ho
    · cases ho
  · obtain ho | ⟨a, v, rest, -, -, -, ho⟩ | ⟨a, v, rest, hs, hw, ha, ho⟩ | ⟨rest, hs, -⟩ := step_ovr_cases h
    · rw [h1, h0] at ho; cases ho
    · simp [h0, h1] at ho
    · exact .inl ⟨a, v, rest, hs, ha, hw, by simpa [h0, h1] using ho⟩
    · exact .inr ⟨rest, hs⟩
  · obtain rfl := Host.Outcome.next.inj ((step_wordWrite (by decide) hs).symm.trans h)
    rw [busWrite_ovr, if_pos rfl]
    simpa using .inr hb
  · obtain rfl := Host.Outcome.next.inj ((step_wordWrite (by decide) hs).symm.trans h)
    rw [busWrite_ovr, if_neg (by decide), if_pos rfl, hv]
    simp
  · obtain rfl := Host.Outcome.next.inj ((step_event hs).symm.trans h)
    rfl

end Sys2Proof.Machine
end

section
/-! The host's side of the port and the engine's progress (`20_memory.md` R63, R70): which accesses are admitted, and that a pending
command is completed once the accesses ahead of it are through. -/

namespace Sys2Proof.Machine

/-! ### Admitted accesses -/

theorem Access.admitted_iff {a : Access} :
    a.admitted = true ↔ a.offset.toNat % 4 = 0 ∧ a.width = 32 ∧ a.lanes = 0b1111#4 := by
  simp [Access.admitted, and_assoc]

theorem hostAccess_refused {a : Access} (ha : ¬ a.admitted = true) (s : State) : hostAccess a s = .refused .busError :=
  if_neg ha

theorem hostAccess_admitted {a : Access} (ha : a.admitted = true) (s : State) : ∃ t, hostAccess a s = .next t := by
  cases hw : a.write with
  | none => exact ⟨_, hostAccess_eq_next.mpr ⟨ha, .inl ⟨hw, rfl⟩⟩⟩
  | some v => exact ⟨_, hostAccess_eq_next.mpr ⟨ha, .inr ⟨v, hw, rfl⟩⟩⟩

/-- Settles O15: the step is the access, and the three conditions together say that it is admitted. -/
theorem inadmissibleAccessRefused : Obligations.InadmissibleAccessRefused := by
  intro s a rest hs
  rw [step_event hs]
  refine ⟨fun hbad => hostAccess_refused (fun ha => ?_) _,
    fun ho hw hl => hostAccess_admitted (Access.admitted_iff.mpr ⟨ho, hw, hl⟩) _⟩
  obtain ⟨ho, hw, hl⟩ := Access.admitted_iff.mp ha
  obtain h | h | h := hbad
  · exact h ho
  · exact h hw
  · exact h hl

/-! ### Completion -/

/-- Where the invariants hold, N is at most MAP_DEPTH while the map is valid, so that no command faults (`10_state.md` R44). -/
theorem EngineInv.exec_next {s : State} (hs : EngineInv s) (i : Instr) : ∃ t, Machine.exec i s = .next t := by
  obtain h | ⟨-, hv, hlt⟩ := exec_total i s
  · exact h
  · exact absurd (hs.map_fits hv) (not_le.mpr hlt)

theorem EngineInv.completeWord_next {s : State} (hs : EngineInv s) (w : Word) : ∃ t, completeWord w s = .next t := by
  obtain ⟨i, -, h⟩ | ⟨-, h⟩ := completeWord_eq (w := w) (s := s) <;> rw [h]
  · exact hs.exec_next i
  · exact ⟨_, rfl⟩

/-- Every completion, with or without an error, raises DONE (`44_command_control.md` R263). -/
theorem exec_done {i : Instr} {s t : State} (h : exec i s = .next t) : t.done = true := by
  obtain ⟨e, -, rfl⟩ | ⟨u, -, rfl⟩ := exec_next_cases h <;> rfl

theorem completeWord_ends {w : Word} {s t : State} (h : completeWord w s = .next t) : t.busy = false ∧ t.done = true := by
  obtain ⟨i, -, hc⟩ | ⟨-, hc⟩ := completeWord_eq (w := w) (s := s) <;> rw [hc] at h
  · exact ⟨by rw [State.busy, exec_pending h]; rfl, exec_done h⟩
  · obtain rfl := Host.Outcome.next.inj h
    exact ⟨rfl, rfl⟩

theorem engineTurn_pending {s : State} {w : Word} (hp : s.pending = some w) : engineTurn s = completeWord w s := by
  rw [engineTurn, fetch, hp]

/-! ### Progress -/

/-- With nothing scheduled the engine moves. -/
theorem step_unscheduled {s : State} (hs : s.schedule = []) : step s = engineTurn { s with schedule := s.schedule.tail } := by
  cases s
  cases hs
  rfl

theorem run_succ {n : Nat} {s u t : State} (hrun : Host.Core.run Sys2Proof.core n s = .next u) (h : step u = .next t) :
    Host.Core.run Sys2Proof.core (n + 1) s = .next t :=
  (run_add hrun).trans (run_one h)

/-- The accesses ahead of the engine's turn leave the pending word and its operands; then the engine completes the word, unless a
reset comes first. -/
theorem pending_until_completion_or_reset {w : Word} {s : State} (hs : EngineInv s) (hp : s.pending = some w)
    (hadm : admittedSchedule s.schedule) :
    ∃ n u, n ≤ s.schedule.length ∧ Host.Core.run Sys2Proof.core n s = .next u
      ∧ EngineInv u ∧ u.pending = some w ∧ u.snap = s.snap
      ∧ (step u = completeWord w { u with schedule := u.schedule.tail }
          ∨ Event.reset ∈ s.schedule ∧ ∃ rest, u.schedule = .reset :: rest) := by
  induction hes : s.schedule generalizing s with
  | nil =>
    exact ⟨0, s, le_rfl, rfl, hs, hp, rfl, .inl ((step_unscheduled hes).trans (engineTurn_pending hp))⟩
  | cons e rest ih =>
    cases e with
    | engine =>
      refine ⟨0, s, Nat.zero_le _, rfl, hs, hp, rfl, .inl ?_⟩
      rw [step_event hes, hes]
      exact engineTurn_pending hp
    | reset => exact ⟨0, s, Nat.zero_le _, rfl, hs, hp, rfl, .inr ⟨.head _, rest, hes⟩⟩
    | access a =>
      rw [hes] at hadm
      obtain ⟨t, ha⟩ := hostAccess_admitted (hadm a (.head _)) { s with schedule := rest }
      have hstep : step s = .next t := (step_event hes).trans ha
      have hrest : t.schedule = rest := (hostAccess_frame ha).schedule
      obtain ⟨hpt, hsnap, -⟩ := hostAccess_pending ha (by simp [State.busy, hp])
      obtain ⟨n, u, hn, hrun, hu, hpu, hsu, hend⟩ := ih (hs.step hstep) (hpt.trans hp)
        (fun b hb => hadm b (.tail _ (hrest ▸ hb))) hrest
      refine ⟨1 + n, u, ?_, (run_add (run_one hstep)).trans hrun, hu, hpu, hsu.trans hsnap,
        hend.imp_right fun ⟨hr, hsch⟩ => ⟨.tail _ hr, hsch⟩⟩
      rw [List.length_cons]
      omega

/-- Settles O22: at the end of the accesses that come first, the next step completes the word or is the reset. -/
theorem pendingCommandCompletes : Obligations.PendingCommandCompletes := by
  intro s hs hb hadm
  refine ⟨?_, fun w hp hnr => ?_⟩
  · obtain ⟨w, hp⟩ := Option.isSome_iff_exists.mp hb
    obtain ⟨n, u, hn, hrun, hu, -, -, hstep | ⟨-, rest, hsch⟩⟩ := pending_until_completion_or_reset hs hp hadm
    · obtain ⟨t, ht⟩ := (hu.withSchedule u.schedule.tail).completeWord_next w
      exact ⟨n + 1, t, Nat.succ_le_succ hn, run_succ hrun (hstep.trans ht), (completeWord_ends ht).1⟩
    · exact ⟨n + 1, _, Nat.succ_le_succ hn, run_succ hrun (step_event hsch), rfl⟩
  · obtain ⟨n, u, hn, hrun, hu, hpu, hsu, hstep | ⟨hr, -⟩⟩ := pending_until_completion_or_reset hs hp hadm
    · obtain ⟨t, ht⟩ := (hu.withSchedule u.schedule.tail).completeWord_next w
      exact ⟨n, u, t, hn, hrun, hpu, hsu, ht, run_succ hrun (hstep.trans ht), completeWord_ends ht⟩
    · exact absurd hr hnr

end Sys2Proof.Machine
end

section
/-! The command words (`30_encoding.md` R90 to R92, R96): the two fields of a word, the opcode map in both directions, and from these
which words are commands and what becomes of the others. -/

namespace Sys2Proof

/-! ### The fields of a word (R90) -/

theorem word_eq_fields (w : Word) : w = rsvField w ++ opcField w := by
  refine BitVec.eq_of_getLsbD_eq fun k hk => ?_
  rw [BitVec.getLsbD_append, rsvField, opcField, BitVec.getLsbD_extractLsb', BitVec.getLsbD_extractLsb']
  split_ifs with h
  · simp [h]
  · simp [show k - 8 < 24 by omega, show 8 + (k - 8) = k by omega]

theorem opcField_append (r : BitVec 24) (o : BitVec 8) : opcField (r ++ o) = o :=
  BitVec.extractLsb'_append_eq_right

theorem rsvField_append (r : BitVec 24) (o : BitVec 8) : rsvField (r ++ o) = r :=
  BitVec.extractLsb'_append_eq_left

theorem opcField_toNat (w : Word) : (opcField w).toNat = w.toNat % 256 := by
  simp [opcField]

theorem rsvField_eq_zero_iff {w : Word} : rsvField w = 0 ↔ w.toNat / 256 = 0 := by
  rw [← BitVec.toNat_inj, rsvField, BitVec.extractLsb'_toNat, Nat.shiftRight_eq_div_pow]
  have hw := w.isLt
  simp only [BitVec.ofNat_eq_ofNat, BitVec.toNat_ofNat]
  omega

/-- The command word of `i` is the word with the reserved bits clear and the opcode of `i`. -/
theorem eq_encode_iff {w : Word} {i : Instr} : w = encode i ↔ rsvField w = 0 ∧ opcField w = opcodeOf i := by
  constructor
  · rintro rfl
    exact ⟨rsvField_append _ _, opcField_append _ _⟩
  · rintro ⟨hr, ho⟩
    rw [word_eq_fields w, hr, ho]
    rfl

/-! ### The opcode map (R92) -/

theorem instrOfOpcode_eq_some {opc : BitVec 8} {i : Instr} : instrOfOpcode opc = some i ↔ opc = opcodeOf i := by
  constructor
  · intro h
    unfold instrOfOpcode at h
    split at h
    case h_19 => cases h
    all_goals
      obtain rfl := Option.some.inj h
      exact BitVec.eq_of_toNat_eq ‹_›
  · rintro rfl
    cases i <;> rfl

theorem opcodeOf_le (i : Instr) : (opcodeOf i).toNat ≤ 0x11 := by
  cases i <;> decide

theorem exists_instrOfOpcode_iff {opc : BitVec 8} : (∃ i, instrOfOpcode opc = some i) ↔ opc.toNat ≤ 0x11 := by
  constructor
  · rintro ⟨i, h⟩
    rw [instrOfOpcode_eq_some.mp h]
    exact opcodeOf_le i
  · intro h
    unfold instrOfOpcode
    generalize opc.toNat = n at h ⊢
    interval_cases n <;> exact ⟨_, rfl⟩

/-! ### Decoding (R91) -/

theorem decode_eq_ok_iff {w : Word} {i : Instr} : decode w = .ok i ↔ rsvField w = 0 ∧ instrOfOpcode (opcField w) = some i := by
  unfold decode
  split_ifs with hr
  · cases instrOfOpcode (opcField w) <;> simp [hr]
  · exact ⟨nofun, fun h => absurd h.1 hr⟩

theorem decode_eq_ok_iff_encode {w : Word} {i : Instr} : decode w = .ok i ↔ w = encode i := by
  rw [decode_eq_ok_iff, instrOfOpcode_eq_some, eq_encode_iff]

theorem decode_encode (i : Instr) : decode (encode i) = .ok i :=
  decode_eq_ok_iff_encode.mpr rfl

theorem exists_decode_ok_iff {w : Word} : (∃ i, decode w = .ok i) ↔ w.toNat / 256 = 0 ∧ w.toNat % 256 ≤ 0x11 := by
  simp only [decode_eq_ok_iff, exists_and_left, exists_instrOfOpcode_iff, rsvField_eq_zero_iff, opcField_toNat]

/-- With the reserved bits clear, what is wrong with a word that is no command is its opcode. -/
theorem decode_unassigned {w : Word} (hr : w.toNat / 256 = 0) (ho : 0x12 ≤ w.toNat % 256) : decode w = .error .opcodeUnassigned := by
  rw [← opcField_toNat] at ho
  unfold decode
  rw [if_pos (rsvField_eq_zero_iff.mpr hr)]
  cases h : instrOfOpcode (opcField w) with
  | none => rfl
  | some i => exact absurd (exists_instrOfOpcode_iff.mp ⟨i, h⟩) (by omega)

/-- Settles O2: a word is determined by its two fields, and the opcode map is inverted by `opcodeOf`. -/
theorem decodeInvertsEncode : Obligations.DecodeInvertsEncode :=
  fun _ _ _ => decode_eq_ok_iff_encode

/-- Settles O3: the two checks of R91, as arithmetic on the word. -/
theorem legalWordsAreExactly : Obligations.LegalWordsAreExactly :=
  fun _ => exists_decode_ok_iff

/-- Settles O1: the assigned opcodes are those that commands encode to. -/
theorem opcodeMapDecodes : Obligations.OpcodeMapDecodes :=
  ⟨decode_encode .nop, decode_encode .inv, decode_encode .sqrt, decode_encode .curveLoad, decode_encode .atX,
    decode_encode .isValid, decode_encode .neg, decode_encode .add, decode_encode .dbl, decode_encode .smul,
    decode_encode .order, decode_encode .cipherLoad, decode_encode .keygen, decode_encode .encrypt, decode_encode .decrypt,
    decode_encode .mapBuild, decode_encode .encodeSymbol, decode_encode .decodePoint,
    fun _ hlo hhi => decode_unassigned (by omega) (by omega)⟩

/-! ### Illegal words (R96) -/

namespace Machine

theorem completeWord_illegal {w : Word} (hw : w.toNat / 256 ≠ 0 ∨ 0x12 ≤ w.toNat % 256) (s : State) :
    completeWord w s = .next (s.complete .illegalCommand) := by
  obtain ⟨i, hd, -⟩ | ⟨-, h⟩ := completeWord_eq (w := w) (s := s)
  · obtain ⟨hr, ho⟩ := exists_decode_ok_iff.mp ⟨i, hd⟩
    omega
  · exact h

/-- The idle engine accepts whatever is written to CMD (`44_command_control.md` R260). -/
theorem busWrite_cmd_idle {s : State} (hp : s.pending = none) (w : Word) : busWrite 0x0C#8 w s = accept w s := by
  show writeCmd w s = _
  rw [writeCmd, hp]

/-- Settles O6: the write is accepted, and the engine's turn completes the illegal word. -/
theorem illegalWordCompletesWithError : Obligations.IllegalWordCompletesWithError := by
  refine ⟨rfl, fun s w rest hp hw => ?_⟩
  have haccept : step { s with schedule := wordWrite 0x0C#8 w :: .engine :: rest }
      = .next (accept w { s with schedule := .engine :: rest }) := by
    rw [step_wordWrite (by decide) rfl]
    exact congrArg _ (busWrite_cmd_idle (s := { s with schedule := .engine :: rest }) hp w)
  have hcomplete : step (accept w { s with schedule := .engine :: rest })
      = .next ((accept w { s with schedule := rest }).complete .illegalCommand) :=
    completeWord_illegal hw _
  exact run_succ (run_one haccept) hcomplete

end Machine
end Sys2Proof
end

section
/-! The prologue of a command (`30_encoding.md` R95 column "needs", `60_exceptions.md` R283 step 2): NOT_READY comes from the flag a
command needs and from nowhere else. -/

namespace Sys2Proof.Machine

theorem needs_of_false {f : Bool} (hf : f = false) (s : State) (body : Out) : needs f s body = raise .notReady s := by
  rw [hf, needs_false]

/-- With the needed flag 0, the body of the command does not matter. -/
theorem exec_of_not_ready {i : Instr} {s : State} (h : ready i s = false) : exec i s = .next (s.complete .notReady) := by
  cases i
  case nop | inv | sqrt | curveLoad => cases h
  all_goals exact needs_of_false h s _

/-- An answer that does not complete with NOT_READY. -/
def NeverNotReady (o : Out) : Prop := ∀ t, o = .next t → t.errCode ≠ .notReady

@[simp] theorem neverNotReady_succeed (s : State) : NeverNotReady (succeed s) := by
  simp [NeverNotReady, State.complete]

@[simp] theorem neverNotReady_raise {e : ErrCode} {s : State} : NeverNotReady (raise e s) ↔ e ≠ .notReady := by
  simp [NeverNotReady, State.complete]

@[simp] theorem neverNotReady_fault (x : Fault) : NeverNotReady (.fault x) := by
  simp [NeverNotReady]

theorem neverNotReady_needs {f : Bool} (hf : f = true) {s : State} {body : Out} (h : NeverNotReady body) :
    NeverNotReady (needs f s body) := by
  rwa [hf, needs_true]

/-- Past the prologue, no check of any command reports NOT_READY. -/
theorem exec_neverNotReady {i : Instr} {s : State} (hr : ready i s = true) : NeverNotReady (exec i s) := by
  cases i
  case nop => exact neverNotReady_succeed _
  case inv | curveLoad =>
    simp only [exec, execInv, execCurveLoad]
    split <;> simp
  case sqrt =>
    simp only [exec, execSqrt]
    split
    · simp
    · split <;> simp
  all_goals refine neverNotReady_needs hr ?_
  case isValid | keygen => exact neverNotReady_succeed _
  case neg | add | dbl | smul | mapBuild => split <;> simp
  case order | cipherLoad | encrypt | decrypt =>
    split
    · split <;> simp
    · simp
  case atX | encodeSymbol | decodePoint =>
    split
    · simp
    · split <;> simp

theorem ready_of_no_needs {i : Instr} (h : i = .nop ∨ i = .inv ∨ i = .sqrt ∨ i = .curveLoad) (s : State) : ready i s = true := by
  obtain rfl | rfl | rfl | rfl := h <;> rfl

/-- Settles O47: the prologue decides, and no body reports NOT_READY. -/
theorem notReadyExactlyWithoutTheNeededFlag : Obligations.NotReadyExactlyWithoutTheNeededFlag :=
  fun _ s => ⟨exec_of_not_ready, exec_neverNotReady, fun h => ready_of_no_needs h s⟩

end Sys2Proof.Machine
end

section
/-! The operand forms of host programs (`30_encoding.md` R99, R100): the phases that a host carrying out one form goes through beside
the engine, and what stands in the run in each. -/

namespace Sys2Proof.Machine

/-! ### What the host's reads and operand writes leave alone -/

theorem busRead_hostReads (off : BitVec 8) (s : State) (reads : List (BitVec 8 × Word)) :
    busRead off { s with hostReads := reads } = busRead off s := by
  unfold busRead
  cases regAt off with
  | none => rfl
  | some r => cases r <;> rfl

theorem completeWord_encode (i : Instr) (s : State) : completeWord (encode i) s = exec i s := by
  rw [completeWord, decode_encode]

/-- A completion does not depend on what the host has read (`44_command_control.md` R261). -/
theorem exec_hostReads {i : Instr} {s t : State} (hx : exec i s = .next t) (reads : List (BitVec 8 × Word)) :
    exec i { s with hostReads := reads } = .next { t with hostReads := reads } := by
  have hframe : s.withFrameOf t = t := completeWord_frame ((completeWord_encode i s).trans hx)
  have hh := exec_withFrameOf i { s with hostReads := reads } s
  rw [hx, mapNext_next] at hh
  rw [← hframe]
  exact hh

theorem regOffset_aligned (r : Reg) : (regOffset r).toNat % 4 = 0 := by
  cases r <;> rfl

theorem busWrite_pending_of_ne_cmd {r : Reg} (hr : r ≠ .cmd) (v : Word) (s : State) :
    (busWrite (regOffset r) v s).pending = s.pending := by
  cases r
  case cmd => exact absurd rfl hr
  all_goals rfl

/-- An operand form writes operand registers before the command (`30_encoding.md` R95). -/
theorem Call.writes_ne_cmd {c : Call} : ∀ rv ∈ c.writes, rv.1 ≠ .cmd := by
  cases c <;> simp [Call.writes]

/-! ### Single turns -/

namespace HostRun

theorem turns_cons_of_turn {t : Turn} {r r' : HostRun} (h : r.turn t = .next r') (ts : List Turn) :
    r.turns (t :: ts) = r'.turns ts := by
  rw [turns, h]

theorem turn_host_done (s : State) (m : List Transaction) : (HostRun.mk [] s m).turn .host = .next ⟨[], s, m⟩ := rfl

theorem turn_engine_idle {r : HostRun} (hp : r.engine.pending = none) : r.turn .engine = .next r := by
  simp [turn, event, perform, engineTurn, fetch, hp, hostSide]

/-- The engine's turn completes the pending command; the host's side is as before. -/
theorem turn_engine_command {i : Instr} {os : List HostOp} {s t : State} {m : List Transaction}
    (hp : s.pending = some (encode i)) (hx : exec i s = .next t) : (HostRun.mk os s m).turn .engine = .next ⟨os, t, m⟩ := by
  have hc : engineTurn s = .next t := by rw [engineTurn_pending hp, completeWord_encode, hx]
  simp [turn, event, perform, hc, hostSide]

/-! ### The loop of `wait` -/

/-- A round of `wait` on a busy engine, whatever has been read before, reads STATUS and goes round again. -/
theorem turn_wait_busy {s : State} (hb : s.busy = true) (os : List HostOp) (h : List (BitVec 8 × Word)) (m : List Transaction) :
    (HostRun.mk (.wait :: os) { s with hostReads := h } m).turn .host =
      .next ⟨.wait :: os, { s with hostReads := (0x08#8, busRead 0x08#8 s) :: h }, m ++ [⟨.r, 0x08#8, busRead 0x08#8 s⟩]⟩ := by
  rw [turn_wait, if_pos (by exact hb), busRead_hostReads]

/-- A round of `wait` on an idle engine reads STATUS and ends the loop. -/
theorem turn_wait_idle {s : State} (hb : s.busy = false) (os : List HostOp) (h : List (BitVec 8 × Word)) (m : List Transaction) :
    (HostRun.mk (.wait :: os) { s with hostReads := h } m).turn .host =
      .next ⟨os, { s with hostReads := (0x08#8, busRead 0x08#8 s) :: h }, m ++ [⟨.r, 0x08#8, busRead 0x08#8 s⟩]⟩ := by
  rw [turn_wait, if_neg (by exact Bool.eq_false_iff.mp hb), busRead_hostReads]

theorem turns_wait_busy {s : State} (hb : s.busy = true) (os : List HostOp) (k : Nat) (h : List (BitVec 8 × Word))
    (m : List Transaction) :
    (HostRun.mk (.wait :: os) { s with hostReads := h } m).turns (List.replicate k .host) =
      .next ⟨.wait :: os, { s with hostReads := List.replicate k (0x08#8, busRead 0x08#8 s) ++ h },
        m ++ List.replicate k ⟨.r, 0x08#8, busRead 0x08#8 s⟩⟩ := by
  induction k generalizing h m with
  | zero => rw [List.replicate_zero, List.replicate_zero, List.replicate_zero, List.append_nil]; rfl
  | succ k ih =>
    rw [List.replicate_succ, turns_cons_of_turn (turn_wait_busy hb os h m), ih, List.append_cons, ← List.replicate_succ',
      List.append_assoc, List.singleton_append, ← List.replicate_succ]

theorem turns_host_done (k : Nat) (s : State) (m : List Transaction) :
    (HostRun.mk [] s m).turns (List.replicate k .host) = .next ⟨[], s, m⟩ := by
  induction k with
  | zero => rfl
  | succ k ih => rw [List.replicate_succ, turns_cons_of_turn (turn_host_done s m), ih]

theorem turns_wait_idle {s : State} (hb : s.busy = false) (k : Nat) (h : List (BitVec 8 × Word)) (m : List Transaction) :
    (HostRun.mk [.wait] { s with hostReads := h } m).turns (List.replicate (k + 1) .host) =
      .next ⟨[], { s with hostReads := (0x08#8, busRead 0x08#8 s) :: h }, m ++ [⟨.r, 0x08#8, busRead 0x08#8 s⟩]⟩ := by
  rw [List.replicate_succ, turns_cons_of_turn (turn_wait_idle hb [] h m), turns_host_done]

end HostRun

/-! ### The phases of an operand form -/

/-- Where a host stands that carries out an operand form. -/
inductive CallPhase where
  /-- The operand writes `ws` and the write to CMD are still to come. -/
  | writing (ws : List (Reg × Word))
  /-- The command is pending. -/
  | waiting
  /-- The command is completed, and the host has not read so. -/
  | completed
  /-- The host has read the STATUS of the completion. -/
  | ended

/-- The phase after a turn of the host or the engine. -/
def CallPhase.next : CallPhase → Turn → CallPhase
  | .writing (_ :: ws), .host => .writing ws
  | .writing [], .host => .waiting
  | .waiting, .engine => .completed
  | .completed, .host => .ended
  | p, _ => p

/-- The transaction of a register write. -/
def writeTransaction (rv : Reg × Word) : Transaction := ⟨.w, regOffset rv.1, rv.2⟩

/-- The transactions of an operand form up to its `k`-th read of STATUS, on the engine `a` that has accepted its command. -/
def Call.polled (c : Call) (a : State) (k : Nat) : List Transaction :=
  c.writes.map writeTransaction ++ ⟨.w, 0x0C#8, encode c.instr⟩ :: List.replicate k ⟨.r, 0x08#8, busRead 0x08#8 a⟩

theorem Call.polled_succ (c : Call) (a : State) (k : Nat) :
    c.polled a k ++ [⟨.r, 0x08#8, busRead 0x08#8 a⟩] = c.polled a (k + 1) := by
  simp [Call.polled, List.replicate_succ']

/-- What stands in a run of the form `c` in each phase: `a` is the engine with the command accepted, `t` with it completed, each up
to what the host has read. -/
inductive CallPhase.Holds (c : Call) (a t : State) : CallPhase → HostRun → Prop where
  | writing {ws : List (Reg × Word)} {u : State} {m : List Transaction} (ne_cmd : ∀ rv ∈ ws, rv.1 ≠ .cmd)
    (idle : u.pending = none)
    (accepted : a = accept (encode c.instr) (ws.foldl (fun u rv => busWrite (regOffset rv.1) rv.2 u) u))
    (made : m ++ ws.map writeTransaction = c.writes.map writeTransaction) :
    Holds c a t (.writing ws)
      ⟨ws.map (fun rv => .write (regOffset rv.1) rv.2) ++ [.write 0x0C#8 (encode c.instr), .wait], u, m⟩
  | waiting (reads : List (BitVec 8 × Word)) (k : Nat) :
    Holds c a t .waiting ⟨[.wait], { a with hostReads := reads }, c.polled a k⟩
  | completed (reads : List (BitVec 8 × Word)) (k : Nat) :
    Holds c a t .completed ⟨[.wait], { t with hostReads := reads }, c.polled a k⟩
  | ended (reads : List (BitVec 8 × Word)) (k : Nat) :
    Holds c a t .ended ⟨[], { t with hostReads := (0x08#8, busRead 0x08#8 t) :: reads },
      c.polled a k ++ [⟨.r, 0x08#8, busRead 0x08#8 t⟩]⟩

section
variable {c : Call} {a t : State}

theorem CallPhase.holds_start {s : State} (hs : s.pending = none)
    (ha : a = accept (encode c.instr) (c.writes.foldl (fun u rv => busWrite (regOffset rv.1) rv.2 u) s)) :
    (CallPhase.writing c.writes).Holds c a t (HostRun.start [.call c] s) := by
  have h := Holds.writing (t := t) Call.writes_ne_cmd hs ha (List.nil_append _)
  rwa [← List.append_nil (_ ++ _)] at h

/-- A turn of the host: the next write, or a round of `wait`. -/
theorem CallPhase.host_turn_holds (ha : a.busy = true) (ht : t.busy = false) {p : CallPhase} {r : HostRun}
    (h : p.Holds c a t r) : ∃ r', r.turn .host = .next r' ∧ (p.next .host).Holds c a t r' := by
  cases h with
  | @writing ws u m ne_cmd idle accepted made =>
    cases ws with
    | nil =>
      refine ⟨_, HostRun.turn_write (by decide) _ _ _ _, ?_⟩
      rw [busWrite_cmd_idle idle, ← show a = accept _ u from accepted, ← List.append_nil m, show m ++ [] = _ from made]
      exact .waiting a.hostReads 0
    | cons rv ws =>
      refine ⟨_, HostRun.turn_write (regOffset_aligned _) _ _ _ _, .writing (fun x hx => ne_cmd x (.tail _ hx)) ?_ accepted ?_⟩
      · rw [busWrite_pending_of_ne_cmd (ne_cmd rv (.head _)), idle]
      · rw [← made, List.append_assoc]
        rfl
  | waiting reads k =>
    refine ⟨_, HostRun.turn_wait_busy ha _ _ _, ?_⟩
    rw [Call.polled_succ]
    exact .waiting _ _
  | completed reads k => exact ⟨_, HostRun.turn_wait_idle ht _ _ _, .ended _ _⟩
  | ended reads k => exact ⟨_, HostRun.turn_host_done _ _, .ended _ _⟩

/-- A turn of the engine: the completion of the command where it is pending. -/
theorem CallPhase.engine_turn_holds (ha : a.pending = some (encode c.instr)) (ht : exec c.instr a = .next t) {p : CallPhase}
    {r : HostRun} (h : p.Holds c a t r) : ∃ r', r.turn .engine = .next r' ∧ (p.next .engine).Holds c a t r' := by
  have hidle : t.pending = none := exec_pending ht
  cases h with
  | @writing ws u m ne_cmd idle accepted made =>
    refine ⟨_, HostRun.turn_engine_idle idle, ?_⟩
    have hp : (CallPhase.writing ws).next .engine = .writing ws := by cases ws <;> rfl
    rw [hp]
    exact .writing ne_cmd idle accepted made
  | waiting reads k => exact ⟨_, HostRun.turn_engine_command ha (exec_hostReads ht reads), .completed _ _⟩
  | completed reads k => exact ⟨_, HostRun.turn_engine_idle hidle, .completed _ _⟩
  | ended reads k => exact ⟨_, HostRun.turn_engine_idle hidle, .ended _ _⟩

/-- Under every interleaving without a reset the phases follow each other. -/
theorem CallPhase.turns_holds (ha : a.pending = some (encode c.instr)) (ht : exec c.instr a = .next t) {ts : List Turn}
    (hts : .reset ∉ ts) {p : CallPhase} {r : HostRun} (h : p.Holds c a t r) :
    ∃ r', r.turns ts = .next r' ∧ (ts.foldl CallPhase.next p).Holds c a t r' := by
  induction ts generalizing p r with
  | nil => exact ⟨r, rfl, h⟩
  | cons tn ts ih =>
    rw [List.mem_cons, not_or] at hts
    obtain ⟨r1, h1, hp1⟩ : ∃ r1, r.turn tn = .next r1 ∧ (p.next tn).Holds c a t r1 := by
      cases tn with
      | host => exact CallPhase.host_turn_holds (by simp [State.busy, ha]) (by simp [State.busy, exec_pending ht]) h
      | engine => exact CallPhase.engine_turn_holds ha ht h
      | reset => exact absurd rfl hts.1
    obtain ⟨r2, h2, hp2⟩ := ih hts.2 hp1
    exact ⟨r2, (HostRun.turns_cons_of_turn h1 ts).trans h2, hp2⟩

/-- Only in the last phase has the host nothing left to do. -/
theorem CallPhase.eq_ended_of_todo_nil {p : CallPhase} {r : HostRun} (h : p.Holds c a t r) (hr : r.todo = []) : p = .ended := by
  cases h with
  | writing => simp at hr
  | waiting | completed => cases hr
  | ended => rfl

end

/-- The host's turns alone bring the run to the read loop of `wait`, however many come after the write to CMD. -/
theorem CallPhase.foldl_host (ws : List (Reg × Word)) (k : Nat) :
    (List.replicate (ws.length + 1 + k) Turn.host).foldl CallPhase.next (.writing ws) = .waiting := by
  induction ws with
  | nil =>
    rw [List.length_nil, Nat.zero_add, Nat.add_comm, List.replicate_succ]
    show (List.replicate k Turn.host).foldl CallPhase.next .waiting = .waiting
    induction k with
    | zero => rfl
    | succ k ih => exact ih
  | cons w ws ih =>
    rw [List.length_cons, show ws.length + 1 + 1 + k = (ws.length + 1 + k) + 1 by omega, List.replicate_succ]
    exact ih

/-- Settles O23: the phases of the form, and the loop of `wait`. -/
theorem operandFormRunsTheCommand : Obligations.OperandFormRunsTheCommand := by
  refine ⟨fun s a t c hs ha ht => ?_, fun s k => ⟨fun hb => ?_, fun hb => ?_⟩⟩
  · have hp : a.pending = some (encode c.instr) := by rw [ha]; rfl
    have hstart : (CallPhase.writing c.writes).Holds c a t (HostRun.start [.call c] s) := CallPhase.holds_start hs ha
    refine ⟨fun ts r hts hr htodo => ?_, fun k => ?_⟩
    · obtain ⟨r', hr', hphase⟩ := CallPhase.turns_holds hp ht hts hstart
      obtain rfl := Host.Outcome.next.inj (hr.symm.trans hr')
      rw [CallPhase.eq_ended_of_todo_nil hphase htodo] at hphase
      cases hphase with
      | ended reads k => exact ⟨rfl, rfl, k, rfl⟩
    · have hnr : Turn.reset ∉ List.replicate (c.writes.length + 1 + k) .host ++ [.engine, .host] := by simp
      obtain ⟨r, hr, hphase⟩ := CallPhase.turns_holds hp ht hnr hstart
      rw [List.foldl_append, CallPhase.foldl_host] at hphase
      cases hphase with
      | ended reads => exact ⟨_, hr, by simp [HostRun.ended, State.busy, exec_pending ht]⟩
  · exact HostRun.turns_wait_busy hb [] k s.hostReads []
  · exact HostRun.turns_wait_idle hb k s.hostReads []

end Sys2Proof.Machine
end

section
/-! The modular arithmetic commands INV and SQRT (`40_modular_arith.md` R121, R125): how each ends, by the result of its search, and
the two statements, which read that result off the searches' own laws. -/

namespace Sys2Proof.Machine

theorem exec_inv_of_search_some {s : State} {t : Nat} (h : invSearch s.opValue s.opModulus = some t) :
    exec .inv s = succeed (s.setRes0 (toWord t)) := by
  simp only [exec, execInv, h]

theorem exec_inv_of_search_none {s : State} (h : invSearch s.opValue s.opModulus = none) :
    exec .inv s = raise .noInverse s := by
  simp only [exec, execInv, h]

theorem exec_sqrt_of_search_some {s : State} {i : Nat} (hn : s.opValue < s.opModulus)
    (h : sqrtSearch s.opValue s.opModulus = some i) :
    exec .sqrt s = succeed (s.setRes01 (toWord i) (toWord (s.opModulus - i))) := by
  simp only [exec, execSqrt, if_neg (Nat.not_le.mpr hn), h]

theorem exec_sqrt_of_search_none {s : State} (hn : s.opValue < s.opModulus) (h : sqrtSearch s.opValue s.opModulus = none) :
    exec .sqrt s = raise .noSquareRoot s := by
  simp only [exec, execSqrt, if_neg (Nat.not_le.mpr hn), h]

theorem exec_sqrt_of_modulus_le {s : State} (hn : s.opModulus ≤ s.opValue) : exec .sqrt s = raise .operandRange s := by
  simp only [exec, execSqrt, if_pos hn]

/-- Settles O25: the least inverse is what the search of R120 answers, and without an inverse it answers nothing. -/
theorem invGivesLeastInverse : Obligations.InvGivesLeastInverse := by
  refine ⟨rfl, fun s => ⟨fun t ht hinv hleast => ?_, fun hnone => ?_⟩⟩
  · exact exec_inv_of_search_some (invSearch_eq_some.mpr ⟨ht, hinv, hleast⟩)
  · exact exec_inv_of_search_none (invSearch_eq_none.mpr hnone)

/-- Settles O26: the range check goes first; then the search of R124 answers the least root, or nothing without a root. -/
theorem sqrtGivesLeastRoot : Obligations.SqrtGivesLeastRoot := by
  refine ⟨rfl, fun s => ⟨fun i hn h1 hi hroot hleast => ?_, fun hn hnone => ?_, fun hn => ?_⟩⟩
  · exact exec_sqrt_of_search_some hn (sqrtSearch_eq_some.mpr ⟨h1, hi, hroot, hleast⟩)
  · exact exec_sqrt_of_search_none hn (sqrtSearch_eq_none.mpr hnone)
  · exact exec_sqrt_of_modulus_le hn

end Sys2Proof.Machine
end

section
/-! The curve group commands (`41_curve_group.md` R141 to R156): what each answers once its curve is there, and the statements, which
read that answer off the laws of the searches and of the curve's checks. -/

namespace Sys2Proof.Machine

/-! ### Operands and the needed flag -/

theorem needs_of_true {f : Bool} (hf : f = true) (s : State) (body : Out) : needs f s body = body := by
  rw [hf, needs_true]

/-- A coordinate of Q or more puts the point out of range (`00_scope.md` R10). -/
theorem not_inField_of_le {c : Curve} {p : Point} (h : c.q.toNat ≤ p.x.toNat ∨ c.q.toNat ≤ p.y.toNat) :
    ¬ inField c p = true := by
  rw [inField_iff]; omega

theorem point_eq_ident_iff {x y : Word} : (⟨x, y⟩ : Point) = ident ↔ x = 0#32 ∧ y = 0#32 := by
  rw [ident, Point.mk.injEq]

theorem toWord_of_toNat (w : Word) : toWord w.toNat = w := by
  rw [toWord, BitVec.ofNat_toNat, BitVec.setWidth_eq]

theorem mod_neg_of_le {m v : Nat} (hm : 0 < m) (hv : v ≤ m) : mod (-(v : Int)) m = (m - v) % m := by
  rw [← mod_natCast hm, Nat.cast_sub hv]
  zify
  rw [mod_pos hm, mod_pos hm, sub_eq_neg_add, Int.add_emod_right]

/-! ### How the commands complete -/

theorem exec_curveLoad_of_sound {s : State} (h : CurveSound s.opCurve) :
    exec .curveLoad s = succeed (s.installCurve s.opCurve) :=
  if_pos (curveOk_iff.mpr h)

theorem exec_curveLoad_of_not_sound {s : State} (h : ¬ CurveSound s.opCurve) :
    exec .curveLoad s = raise .invalidCurveParameters s :=
  if_neg (mt curveOk_iff.mp h)

theorem exec_atX_of_search_some {s : State} {i : Nat} (hv : s.curveValid = true) (hx : s.opX < s.curve.q.toNat)
    (h : sqrtSearch (rhs s.curve s.opX) s.curve.q.toNat = some i) :
    exec .atX s =
      succeed ((s.setRes01 (toWord s.opX) (toWord i)).setRes23 (toWord s.opX) (toWord (s.curve.q.toNat - i))) := by
  simp only [exec, execAtX, needs_of_true hv, if_neg (Nat.not_le.mpr hx), h]

theorem exec_atX_of_search_none {s : State} (hv : s.curveValid = true) (hx : s.opX < s.curve.q.toNat)
    (h : sqrtSearch (rhs s.curve s.opX) s.curve.q.toNat = none) : exec .atX s = raise .noPointAtX s := by
  simp only [exec, execAtX, needs_of_true hv, if_neg (Nat.not_le.mpr hx), h]

theorem exec_atX_of_modulus_le {s : State} (hv : s.curveValid = true) (hx : s.curve.q.toNat ≤ s.opX) :
    exec .atX s = raise .operandRange s :=
  (needs_of_true hv s _).trans (if_pos hx)

theorem exec_isValid {s : State} (hv : s.curveValid = true) :
    exec .isValid s = succeed (s.setRes0 (if valid s.curve s.opPoint01 then 1#32 else 0#32)) :=
  needs_of_true hv s _

/-- The body that NEG, ADD, DBL and SMUL share: the range check of the operand points, then a point in RES0 and RES1. -/
def rangeChecked (inRange : Bool) (r : Point) (s : State) : Out :=
  if inRange then succeed (s.setRes01 r.x r.y) else raise .operandRange s

theorem rangeChecked_of_inRange {b : Bool} (h : b = true) (r : Point) (s : State) :
    rangeChecked b r s = succeed (s.setRes01 r.x r.y) := if_pos h

theorem rangeChecked_of_not_inRange {b : Bool} (h : ¬ b = true) (r : Point) (s : State) :
    rangeChecked b r s = raise .operandRange s := if_neg h

/-- The checked body does not look at the snapshot. -/
theorem rangeChecked_snap {b : Bool} {r : Point} {s t : State} (h : rangeChecked b r s = .next t) (o : Operands) :
    rangeChecked b r { s with snap := o } = .next { t with snap := o } := by
  cases b
  case false => obtain rfl := raise_eq_next.mp h; rfl
  case true => obtain rfl := succeed_eq_next.mp h; rfl

theorem exec_neg {s : State} (hv : s.curveValid = true) :
    exec .neg s = rangeChecked (inField s.curve s.opPoint01) (ecNeg s.curve s.opPoint01) s :=
  needs_of_true hv s _

theorem exec_add {s : State} (hv : s.curveValid = true) :
    exec .add s = rangeChecked (inField s.curve s.opPoint01 && inField s.curve s.opPoint23)
      (ecAdd s.curve s.opPoint01 s.opPoint23) s :=
  needs_of_true hv s _

/-- The operands of ADD for `P + P` (`41_curve_group.md` R152): slots 2 and 3 repeat slots 0 and 1. -/
def Operands.doubled (o : Operands) : Operands := { o with op2 := o.op0, op3 := o.op1 }

theorem exec_add_doubled {s : State} (hv : s.curveValid = true) :
    exec .add { s with snap := s.snap.doubled } = rangeChecked (inField s.curve s.opPoint01)
      (ecAdd s.curve s.opPoint01 s.opPoint01) { s with snap := s.snap.doubled } :=
  (exec_add (s := { s with snap := s.snap.doubled }) hv).trans
    (congrArg (rangeChecked · _ _) (Bool.and_self (inField s.curve s.opPoint01)))

theorem exec_dbl {s : State} (hv : s.curveValid = true) :
    exec .dbl s = rangeChecked (inField s.curve s.opPoint01) (ecAdd s.curve s.opPoint01 s.opPoint01) s :=
  needs_of_true hv s _

theorem exec_smul {s : State} (hv : s.curveValid = true) :
    exec .smul s = rangeChecked (inField s.curve s.opPoint01) (ecSmul s.curve s.opPoint01 s.opScalar) s :=
  needs_of_true hv s _

theorem exec_order_of_search_some {s : State} {i : Nat} (hv : s.curveValid = true)
    (hp : valid s.curve s.opPoint01 = true) (hne : s.opPoint01 ≠ ident) (h : ecOrder s.curve s.opPoint01 = some i) :
    exec .order s = succeed (s.setRes0 (toWord i)) := by
  simp only [exec, execOrder, needs_of_true hv, hp, bne_iff_ne.mpr hne, Bool.and_self, if_true, h]

theorem exec_order_of_search_none {s : State} (hv : s.curveValid = true)
    (hp : valid s.curve s.opPoint01 = true) (hne : s.opPoint01 ≠ ident) (h : ecOrder s.curve s.opPoint01 = none) :
    exec .order s = raise .orderNotFound s := by
  simp only [exec, execOrder, needs_of_true hv, hp, bne_iff_ne.mpr hne, Bool.and_self, if_true, h]

theorem exec_order_of_invalid {s : State} (hv : s.curveValid = true)
    (hp : valid s.curve s.opPoint01 = false ∨ s.opPoint01 = ident) : exec .order s = raise .invalidPoint s := by
  refine (needs_of_true hv s _).trans (if_neg ?_)
  rw [Bool.and_eq_true, bne_iff_ne]
  rintro ⟨hvalid, hne⟩
  obtain hp | hp := hp
  · rw [hp] at hvalid; cases hvalid
  · exact hne hp

/-! ### The statements -/

/-- Settles O27: the check of CURVE_LOAD is soundness of the operand curve. -/
theorem curveLoadInstallsSoundCurves : Obligations.CurveLoadInstallsSoundCurves :=
  ⟨rfl, fun _ => ⟨exec_curveLoad_of_sound, exec_curveLoad_of_not_sound⟩⟩

/-- Settles O28: the range check goes first; then the search of R124 answers the least root of the right-hand side, or nothing. -/
theorem atGivesBothPoints : Obligations.AtGivesBothPoints := by
  refine ⟨rfl, fun s hv => ⟨fun i hx h1 hi hroot hleast => ?_, fun hx hnone => ?_, exec_atX_of_modulus_le hv⟩⟩
  · have hrhs := rhs_eq (Nat.zero_lt_of_lt hx) s.opX
    rw [exec_atX_of_search_some hv hx (sqrtSearch_eq_some.mpr ⟨h1, hi, hroot.trans hrhs.symm, hrhs ▸ hleast⟩), State.opX,
      toWord_of_toNat]
    rfl
  · have hrhs := rhs_eq (Nat.zero_lt_of_lt hx) s.opX
    exact exec_atX_of_search_none hv hx (sqrtSearch_eq_none.mpr (hrhs ▸ hnone))

/-- Settles O29: RES0 is the truth value of R145, which in plain arithmetic is the condition stated. -/
theorem isValidTestsTheCurveEquation : Obligations.IsValidTestsTheCurveEquation := by
  refine ⟨rfl, fun s hv => ?_⟩
  rw [exec_isValid hv, ← point_eq_ident_iff, ← valid_iff (c := s.curve) (p := ⟨s.snap.op0, s.snap.op1⟩)]
  exact ⟨fun h => by rw [State.opPoint01, if_pos h]; rfl, fun h => by rw [State.opPoint01, if_neg h]; rfl⟩

/-- Settles O30: NEG keeps x, and the residue of `−y` is that of `Q − y`. -/
theorem negNegatesTheOrdinate : Obligations.NegNegatesTheOrdinate := by
  refine ⟨rfl, fun s hv => ⟨fun hx hy => ?_, fun h => ?_⟩⟩
  · rw [exec_neg hv, rangeChecked_of_inRange (inField_iff.mpr ⟨hx, hy⟩), ← mod_neg_of_le (Nat.zero_lt_of_lt hx) hy.le]
    rfl
  · exact (exec_neg hv).trans (rangeChecked_of_not_inRange (not_inField_of_le h) _ s)

/-- Settles O31: both operand points pass the range check, or one of them does not. -/
theorem addGivesTheSum : Obligations.AddGivesTheSum := by
  refine ⟨rfl, fun s hv => ⟨fun hx1 hy1 hx2 hy2 => ?_, fun h => ?_⟩⟩
  · exact (exec_add hv).trans (rangeChecked_of_inRange
      (Bool.and_eq_true_iff.mpr ⟨inField_iff.mpr ⟨hx1, hy1⟩, inField_iff.mpr ⟨hx2, hy2⟩⟩) _ s)
  · refine (exec_add hv).trans (rangeChecked_of_not_inRange (fun hboth => ?_) _ s)
    obtain ⟨h1, h2⟩ := Bool.and_eq_true_iff.mp hboth
    obtain h | h | h | h := h
    · exact not_inField_of_le (.inl h) h1
    · exact not_inField_of_le (.inr h) h1
    · exact not_inField_of_le (.inl h) h2
    · exact not_inField_of_le (.inr h) h2

/-- Settles O32: with both operand points equal, ADD checks and adds what DBL does. -/
theorem dblIsAddOfEqualOperands : Obligations.DblIsAddOfEqualOperands := by
  refine ⟨rfl, fun s hv => ⟨fun hx hy => ?_, fun h => ?_, fun t ht => ?_⟩⟩
  · exact (exec_dbl hv).trans (rangeChecked_of_inRange (inField_iff.mpr ⟨hx, hy⟩) _ s)
  · exact (exec_dbl hv).trans (rangeChecked_of_not_inRange (not_inField_of_le h) _ s)
  · exact (exec_add_doubled hv).trans (rangeChecked_snap ((exec_dbl hv).symm.trans ht) _)

/-- Settles O36: the range check of the point is the only check of SMUL. -/
theorem smulGivesTheMultiple : Obligations.SmulGivesTheMultiple := by
  refine ⟨rfl, fun s hv => ⟨fun hx hy => ?_, fun h => ?_⟩⟩
  · exact (exec_smul hv).trans (rangeChecked_of_inRange (inField_iff.mpr ⟨hx, hy⟩) _ s)
  · exact (exec_smul hv).trans (rangeChecked_of_not_inRange (not_inField_of_le h) _ s)

/-- Settles O38: the point check goes first; then the order search answers the least multiple that is IDENT, or nothing. -/
theorem orderGivesTheLeastMultiple : Obligations.OrderGivesTheLeastMultiple := by
  refine ⟨rfl, fun s hv => ⟨fun i hp hne h1 hi hmul hleast => ?_, fun hp hne hnone => ?_, exec_order_of_invalid hv⟩⟩
  · exact exec_order_of_search_some hv hp hne (ecOrder_eq_some.mpr ⟨h1, hi, hmul, hleast⟩)
  · exact exec_order_of_search_none hv hp hne (ecOrder_eq_none.mpr hnone)

end Sys2Proof.Machine
end

section
/-! The group law on in-range points, on the curve or not (`41_curve_group.md` R149, R150): one equation for each case of `ecAdd`, the
slope inverse as the field's inverse, and what follows for the result. -/

namespace Sys2Proof.Machine

/-! ### Residues modulo a sound curve's Q -/

theorem CurveSound.q_pos {c : Curve} (hc : CurveSound c) : 0 < c.q.toNat := hc.q_prime.pos

theorem mod_eq_mod_iff {q : Nat} (hq : 0 < q) (v w : Int) : mod v q = mod w q ↔ (v : ZMod q) = (w : ZMod q) := by
  rw [← cast_mod hq v, ← cast_mod hq w, cast_inj (mod_lt hq v) (mod_lt hq w)]

theorem intCast_eq_one_of_emod_eq_one {q : Nat} {v : Int} (h : v % q = 1) : (v : ZMod q) = 1 := by
  rw [← ZMod.intCast_mod, h, Int.cast_one]

theorem cast_ne_zero {c : Curve} {w : Word} (hw : w.toNat < c.q.toNat) (hne : w ≠ 0#32) : (w.toNat : ZMod c.q.toNat) ≠ 0 := by
  intro h0
  have hzero : w.toNat = 0 := (cast_inj hw (Nat.zero_lt_of_lt hw)).mp (by rw [h0, Nat.cast_zero])
  exact hne (BitVec.eq_of_toNat_eq hzero)

/-- Q is odd: it is a prime above 2. -/
theorem two_ne_zero_of_sound {c : Curve} (hc : CurveSound c) : (2 : ZMod c.q.toNat) ≠ 0 := fun h0 =>
  two_ne_zero ((cast_inj hc.q_gt_two hc.q_pos).mp (by exact_mod_cast h0))

theorem double_ne_zero {c : Curve} (hc : CurveSound c) {w : Word} (hw : w.toNat < c.q.toNat) (hne : w ≠ 0#32) :
    ((2 * (w.toNat : Int) : Int) : ZMod c.q.toNat) ≠ 0 := by
  have := Fact.mk hc.q_prime
  push_cast
  exact mul_ne_zero (two_ne_zero_of_sound hc) (cast_ne_zero hw hne)

theorem difference_ne_zero {c : Curve} {v w : Word} (hv : v.toNat < c.q.toNat) (hw : w.toNat < c.q.toNat) (hne : v ≠ w) :
    (((w.toNat : Int) - v.toNat : Int) : ZMod c.q.toNat) ≠ 0 := by
  push_cast
  exact sub_ne_zero.mpr fun h => hne ((cast_inj_word hw hv).mp h).symm

/-! ### The slope inverse -/

/-- R150 item 1: the search of a slope does not fail where the denominator is not 0 in the field. -/
theorem invSearch_mod_total {c : Curve} (hc : CurveSound c) {v : Int} (hv : (v : ZMod c.q.toNat) ≠ 0) :
    ∃ t, invSearch (mod v c.q.toNat) c.q.toNat = some t := by
  have hne : mod v c.q.toNat % c.q.toNat ≠ 0 := by
    rw [Nat.mod_eq_of_lt (mod_lt hc.q_pos v)]
    exact fun h0 => hv (by rw [← cast_mod hc.q_pos, h0, Nat.cast_zero])
  obtain ⟨t, ht, -⟩ := invSearch_prime hc.q_prime hne
  exact ⟨t, ht⟩

theorem slopeInverse_lt {c : Curve} (hc : CurveSound c) {v : Int} (hv : (v : ZMod c.q.toNat) ≠ 0) :
    slopeInverse c (mod v c.q.toNat) < c.q.toNat := by
  obtain ⟨t, ht⟩ := invSearch_mod_total hc hv
  rw [slopeInverse, ht]
  exact (invSearch_eq_some.mp ht).1

/-- The inverse in `[0, Q)` is unique, so the search finds it. -/
theorem slopeInverse_eq {c : Curve} (hc : CurveSound c) {v : Int} {t : Nat} (ht : t < c.q.toNat) (h : v * t % c.q.toNat = 1) :
    slopeInverse c (mod v c.q.toNat) = t := by
  have := Fact.mk hc.q_prime
  have hvt : (v : ZMod c.q.toNat) * (t : ZMod c.q.toNat) = 1 := by
    exact_mod_cast intCast_eq_one_of_emod_eq_one h
  have hv : (v : ZMod c.q.toNat) ≠ 0 := left_ne_zero_of_mul_eq_one hvt
  exact (cast_inj (slopeInverse_lt hc hv) ht).mp (mul_left_cancel₀ hv ((slopeInverse_mul hc hv).trans hvt.symm))

/-! ### The cases of `ecAdd` -/

theorem ecAdd_of_opposite {c : Curve} {p1 p2 : Point} (h1 : p1 ≠ ident) (h2 : p2 ≠ ident) (hx : p1.x = p2.x)
    (hy : p1.y ≠ p2.y ∨ p1.y = 0#32) : ecAdd c p1 p2 = ident := by
  simp only [ecAdd, if_neg h1, if_neg h2, if_pos (And.intro hx hy)]

theorem ecAdd_self {c : Curve} {p : Point} (hy : p.y ≠ 0#32) :
    ecAdd c p p = chordPoint c
      (mod ((3 * (p.x.toNat : Int) ^ 2 + c.a.toNat) * slopeInverse c (mod (2 * (p.y.toNat : Int)) c.q.toNat)) c.q.toNat)
      p.x.toNat p.y.toNat p.x.toNat := by
  have hp : p ≠ ident := fun h => hy (by rw [h]; rfl)
  simp [ecAdd, hp, hy]

theorem ecAdd_of_x_ne {c : Curve} {p1 p2 : Point} (h1 : p1 ≠ ident) (h2 : p2 ≠ ident) (hx : p1.x ≠ p2.x) :
    ecAdd c p1 p2 = chordPoint c
      (mod (((p2.y.toNat : Int) - p1.y.toNat) * slopeInverse c (mod ((p2.x.toNat : Int) - p1.x.toNat) c.q.toNat)) c.q.toNat)
      p1.x.toNat p1.y.toNat p2.x.toNat := by
  have hp : p1 ≠ p2 := fun h => hx (by rw [h])
  simp only [ecAdd, if_neg h1, if_neg h2, if_neg (not_and_of_not_left _ hx), if_neg hp]

/-- R150 item 2: with equal abscissae, what is not the opposite case is the doubling of a point off the x-axis. -/
theorem eq_of_not_opposite {p1 p2 : Point} (hx : p1.x = p2.x) (hy : ¬ (p1.y ≠ p2.y ∨ p1.y = 0#32)) :
    p1 = p2 ∧ p1.y ≠ 0#32 := by
  obtain ⟨hy1, hy2⟩ := not_or.mp hy
  exact ⟨Point.mk.injEq .. ▸ ⟨hx, not_not.mp hy1⟩, hy2⟩

/-- Every sum is an operand, IDENT or a chord point (R149). -/
theorem ecAdd_cases (c : Curve) (p1 p2 : Point) :
    ecAdd c p1 p2 = p2 ∨ ecAdd c p1 p2 = p1 ∨ ecAdd c p1 p2 = ident
      ∨ ∃ (l : Nat) (x1 y1 x2 : Int), ecAdd c p1 p2 = chordPoint c l x1 y1 x2 := by
  by_cases h1 : p1 = ident
  · exact .inl (by rw [h1, ecAdd_ident_left])
  by_cases h2 : p2 = ident
  · exact .inr (.inl (by rw [h2, ecAdd_ident_right]))
  by_cases hx : p1.x = p2.x
  · by_cases hy : p1.y ≠ p2.y ∨ p1.y = 0#32
    · exact .inr (.inr (.inl (ecAdd_of_opposite h1 h2 hx hy)))
    · obtain ⟨rfl, hne⟩ := eq_of_not_opposite hx hy
      exact .inr (.inr (.inr ⟨_, _, _, _, ecAdd_self hne⟩))
  · exact .inr (.inr (.inr ⟨_, _, _, _, ecAdd_of_x_ne h1 h2 hx⟩))

/-- R150 item 3. -/
theorem ecAdd_inField {c : Curve} (hq : 0 < c.q.toNat) {p1 p2 : Point} (h1 : inField c p1 = true) (h2 : inField c p2 = true) :
    inField c (ecAdd c p1 p2) = true := by
  obtain h | h | h | ⟨_, _, _, _, h⟩ := ecAdd_cases c p1 p2 <;> rw [h]
  · exact h2
  · exact h1
  · exact ident_inField hq
  · exact chordPoint_inField hq ..

/-- R150 item 5: no case reads B. -/
theorem ecAdd_withB (c : Curve) (b : Word) (p1 p2 : Point) : ecAdd { c with b := b } p1 p2 = ecAdd c p1 p2 := rfl

/-! ### The chord point -/

/-- The coordinates of R149, for the slope `l`. -/
theorem chordPoint_coords {c : Curve} (hq : 0 < c.q.toNat) {v l : Int} (hl : l = v % c.q.toNat) (x1 y1 x2 : Int) :
    ((chordPoint c (mod v c.q.toNat) x1 y1 x2).x.toNat : Int) = (l ^ 2 - x1 - x2) % c.q.toNat
      ∧ ((chordPoint c (mod v c.q.toNat) x1 y1 x2).y.toNat : Int) =
        (l * (x1 - (chordPoint c (mod v c.q.toNat) x1 y1 x2).x.toNat) - y1) % c.q.toNat := by
  simp only [chordPoint, toWord_mod_toNat hq, mod_pos hq, hl, and_self]

/-- The chord point does not depend on which end of the chord is taken first. -/
theorem chordPoint_swap {c : Curve} (hq : 0 < c.q.toNat) {l : Nat} {x1 y1 x2 y2 : Int}
    (hl : (l : ZMod c.q.toNat) * (x2 - x1) = y2 - y1) : chordPoint c l x1 y1 x2 = chordPoint c l x2 y2 x1 := by
  have hx : (l : Int) ^ 2 - x1 - x2 = (l : Int) ^ 2 - x2 - x1 := sub_right_comm ..
  have hy : mod ((l : Int) * (x1 - mod ((l : Int) ^ 2 - x2 - x1) c.q.toNat) - y1) c.q.toNat =
      mod ((l : Int) * (x2 - mod ((l : Int) ^ 2 - x2 - x1) c.q.toNat) - y2) c.q.toNat := by
    rw [mod_eq_mod_iff hq]
    push_cast
    linear_combination -hl
  simp only [chordPoint, hx, hy]

/-- The slope of a chord does not depend on which end is taken first. -/
theorem chordSlope_swap {c : Curve} (hc : CurveSound c) {x1 y1 x2 y2 : Int} (hx : ((x2 - x1 : Int) : ZMod c.q.toNat) ≠ 0) :
    mod ((y2 - y1) * slopeInverse c (mod (x2 - x1) c.q.toNat)) c.q.toNat =
      mod ((y1 - y2) * slopeInverse c (mod (x1 - x2) c.q.toNat)) c.q.toNat := by
  have := Fact.mk hc.q_prime
  have hx' : ((x1 - x2 : Int) : ZMod c.q.toNat) ≠ 0 := by
    rw [← neg_sub, Int.cast_neg]; exact neg_ne_zero.mpr hx
  have hinv := slopeInverse_mul hc hx
  have hinv' := slopeInverse_mul hc hx'
  rw [mod_eq_mod_iff hc.q_pos]
  refine mul_left_cancel₀ hx ?_
  push_cast at hinv hinv' ⊢
  linear_combination ((y2 : ZMod c.q.toNat) - y1) * hinv + ((y1 : ZMod c.q.toNat) - y2) * hinv'

/-- A slope times its denominator is its numerator. -/
theorem chordSlope_mul {c : Curve} (hc : CurveSound c) {n d : Int} (hd : (d : ZMod c.q.toNat) ≠ 0) :
    ((mod (n * slopeInverse c (mod d c.q.toNat)) c.q.toNat : Nat) : ZMod c.q.toNat) * d = n := by
  have hinv := slopeInverse_mul hc hd
  rw [cast_mod hc.q_pos]
  push_cast
  linear_combination (n : ZMod c.q.toNat) * hinv

/-- R150 item 4: every case of R149 is symmetric; for two distinct abscissae the two chords have one slope and one third point. -/
theorem ecAdd_comm {c : Curve} (hc : CurveSound c) {p1 p2 : Point} (hf1 : inField c p1 = true) (hf2 : inField c p2 = true) :
    ecAdd c p1 p2 = ecAdd c p2 p1 := by
  by_cases h1 : p1 = ident
  · rw [h1, ecAdd_ident_left, ecAdd_ident_right]
  by_cases h2 : p2 = ident
  · rw [h2, ecAdd_ident_left, ecAdd_ident_right]
  by_cases hx : p1.x = p2.x
  · by_cases hy : p1.y ≠ p2.y ∨ p1.y = 0#32
    · have hy' : p2.y ≠ p1.y ∨ p2.y = 0#32 := by grind
      rw [ecAdd_of_opposite h1 h2 hx hy, ecAdd_of_opposite h2 h1 hx.symm hy']
    · rw [(eq_of_not_opposite hx hy).1]
  · obtain ⟨hx1, -⟩ := inField_iff.mp hf1
    obtain ⟨hx2, -⟩ := inField_iff.mp hf2
    have hd := difference_ne_zero hx1 hx2 hx
    rw [ecAdd_of_x_ne h1 h2 hx, ecAdd_of_x_ne h2 h1 (Ne.symm hx), ← chordSlope_swap hc hd]
    exact chordPoint_swap hc.q_pos (by exact_mod_cast chordSlope_mul hc hd)

/-! ### The statements -/

/-- Settles O33: each case by its equation, where the slope inverse is the given `t`. -/
theorem additionFollowsTheGroupLaw : Obligations.AdditionFollowsTheGroupLaw := by
  intro c p1 p2 hc _ _
  refine ⟨?_, ?_, ecAdd_of_opposite, ?_, ?_⟩
  · rintro rfl
    exact ecAdd_ident_left c p2
  · rintro rfl
    exact ecAdd_ident_right c p1
  · rintro rfl hy t ht hinv l hl
    rw [ecAdd_self hy, slopeInverse_eq hc ht hinv]
    exact chordPoint_coords hc.q_pos hl ..
  · rintro h1 h2 hx t ht hinv l hl
    rw [ecAdd_of_x_ne h1 h2 hx, slopeInverse_eq hc ht hinv]
    exact chordPoint_coords hc.q_pos hl ..

/-- Settles O34: the denominators of both slopes are not 0 in the field, and the cases of `ecAdd` give the rest. -/
theorem additionIsTotalAndInRange : Obligations.AdditionIsTotalAndInRange := by
  intro c p1 p2 hc h1 h2
  obtain ⟨hx1, hy1⟩ := inField_iff.mp h1
  obtain ⟨hx2, -⟩ := inField_iff.mp h2
  exact ⟨fun hy => invSearch_mod_total hc (double_ne_zero hc hy1 hy),
    fun hx => invSearch_mod_total hc (difference_ne_zero hx1 hx2 hx),
    eq_of_not_opposite, ecAdd_inField hc.q_pos h1 h2, fun b => ecAdd_withB c b p1 p2⟩

/-- Settles O35: each case of `ecAdd` is symmetric. -/
theorem additionCommutes : Obligations.AdditionCommutes :=
  fun _ _ _ hc => ecAdd_comm hc

end Sys2Proof.Machine
end

section
/-! Scalar multiples and the group of valid points (`41_curve_group.md` R153, R157): the loop of `ecSmul` as a fold over the binary
digits, and the laws of Mathlib's group of points read back through `Rep`. -/

namespace Sys2Proof.Machine

/-! ### Double-and-add -/

/-- One round of R153 on the accumulator and the running point, for one binary digit of the scalar. -/
def doubleAndAdd (c : Curve) (rt : Point × Point) (b : Bool) : Point × Point :=
  (if b then ecAdd c rt.1 rt.2 else rt.1, ecAdd c rt.2 rt.2)

/-- The round that the loop makes for a scalar that is not 0 is the round for its lowest binary digit. -/
theorem smulLoop_bit (c : Curve) (n : Nat) (r t : Point) (b : Bool) {m : Nat} (h : Nat.bit b m ≠ 0) :
    smulLoop c (n + 1) r t (Nat.bit b m) = smulLoop c n (doubleAndAdd c (r, t) b).1 (doubleAndAdd c (r, t) b).2 m := by
  rw [smulLoop, if_neg h, Nat.bit_div_two, Nat.bit_mod_two]
  cases b <;> rfl

/-- The loop is the fold of its rounds over the binary digits, whatever its bound, as long as that is at least the scalar. -/
theorem smulLoop_eq_foldl (c : Curve) {n j : Nat} (r t : Point) (hj : j ≤ n) :
    smulLoop c n r t j = (j.bits.foldl (doubleAndAdd c) (r, t)).1 := by
  induction j using Nat.binaryRec' generalizing n r t with
  | zero => cases n <;> simp [smulLoop]
  | bit b m hb ih =>
    have hpos : Nat.bit b m ≠ 0 := fun h0 => by
      obtain ⟨hm, hbf⟩ := Nat.bit_eq_zero_iff.mp h0
      rw [hb hm] at hbf; cases hbf
    have hm : m < Nat.bit b m := by rw [Nat.bit_val] at hpos ⊢; omega
    obtain ⟨n, rfl⟩ := Nat.exists_eq_succ_of_ne_zero (by omega : n ≠ 0)
    rw [smulLoop_bit c n r t b hpos, ih _ _ (by omega), Nat.bits_append_bit m b hb, List.foldl_cons]

/-- Settles O37: the loop starts at IDENT and the point, with the scalar itself as its bound. -/
theorem scalarMultipleIsDoubleAndAdd : Obligations.ScalarMultipleIsDoubleAndAdd :=
  fun c p k => smulLoop_eq_foldl c ident p (le_refl k)

/-! ### The group of valid points -/

theorem rep_ident (c : Curve) : Rep c ident 0 := .inl ⟨rfl, rfl⟩

/-- Repeated addition stands for the multiple in the group. -/
theorem rep_iterate_add {c : Curve} (hc : CurveSound c) {p : Point} {P : c.weier.Point} (h : Rep c p P) (k : Nat) :
    letI := Fact.mk hc.q_prime
    Rep c ((fun r => ecAdd c r p)^[k] ident) (k • P) := by
  have := Fact.mk hc.q_prime
  induction k with
  | zero => rw [zero_nsmul]; exact rep_ident c
  | succ k ih => rw [Function.iterate_succ_apply', succ_nsmul]; exact rep_add hc ih h

/-- Double-and-add is repeated addition (R157, scalar consistency). -/
theorem ecSmul_eq_iterate {c : Curve} (hc : CurveSound c) {p : Point} (h : valid c p = true) (k : Nat) :
    ecSmul c p k = (fun r => ecAdd c r p)^[k] ident := by
  obtain ⟨P, hP⟩ := exists_rep hc h
  exact (rep_smul hc hP k).inj (rep_iterate_add hc hP k)

theorem ecAdd_valid {c : Curve} (hc : CurveSound c) {p1 p2 : Point} (h1 : valid c p1 = true) (h2 : valid c p2 = true) :
    valid c (ecAdd c p1 p2) = true := by
  obtain ⟨P1, hP1⟩ := exists_rep hc h1
  obtain ⟨P2, hP2⟩ := exists_rep hc h2
  exact (rep_add hc hP1 hP2).valid hc

theorem ecNeg_valid {c : Curve} (hc : CurveSound c) {p : Point} (h : valid c p = true) : valid c (ecNeg c p) = true := by
  obtain ⟨P, hP⟩ := exists_rep hc h
  exact (rep_neg hc hP).valid hc

theorem ecAdd_ecNeg {c : Curve} (hc : CurveSound c) {p : Point} (h : valid c p = true) : ecAdd c p (ecNeg c p) = ident := by
  have := Fact.mk hc.q_prime
  obtain ⟨P, hP⟩ := exists_rep hc h
  have hsum := rep_add hc hP (rep_neg hc hP)
  rw [add_neg_cancel] at hsum
  exact hsum.inj (rep_ident c)

theorem ecAdd_assoc {c : Curve} (hc : CurveSound c) {p1 p2 p3 : Point} (h1 : valid c p1 = true) (h2 : valid c p2 = true)
    (h3 : valid c p3 = true) : ecAdd c (ecAdd c p1 p2) p3 = ecAdd c p1 (ecAdd c p2 p3) := by
  have := Fact.mk hc.q_prime
  obtain ⟨P1, hP1⟩ := exists_rep hc h1
  obtain ⟨P2, hP2⟩ := exists_rep hc h2
  obtain ⟨P3, hP3⟩ := exists_rep hc h3
  have hleft := rep_add hc (rep_add hc hP1 hP2) hP3
  rw [add_assoc] at hleft
  exact hleft.inj (rep_add hc hP1 (rep_add hc hP2 hP3))

/-- Settles O57: each law of the group of points, read back; the order by what the order search answers. -/
theorem validPointsFormAGroup : Obligations.ValidPointsFormAGroup := by
  intro c p1 p2 p3 hc h1 h2 h3
  refine ⟨⟨ident_valid hc.q_pos, ecAdd_valid hc h1 h2, ecNeg_valid hc h1⟩, ecAdd_ident_right c p1, ecAdd_ecNeg hc h1,
    ecAdd_assoc hc h1 h2 h3, ecAdd_comm hc (valid_inField h1) (valid_inField h2), ecSmul_eq_iterate hc h1,
    fun n hn => ?_⟩
  obtain ⟨-, -, hmul, hleast⟩ := ecOrder_eq_some.mp hn
  exact ⟨hmul, hleast⟩

end Sys2Proof.Machine
end

section
/-! The ElGamal commands (`42_elgamal.md` R201 to R205): what each answers once the curve or the cipher is there, the statements of
single commands, and the round trip, which is a cancellation in the group of valid points. -/

namespace Sys2Proof.Machine

/-! ### How the commands complete -/

/-- The points that CIPHER_LOAD refuses as generators (R201) fail its check. -/
theorem generator_check_fails {c : Curve} {p : Point} (h : valid c p = false ∨ p = ident) :
    ¬ (valid c p && p != ident) = true := by
  obtain h | rfl := h
  · simp [h]
  · simp

theorem exec_cipherLoad_of_search_some {s : State} {n : Nat} (hv : s.curveValid = true)
    (hp : valid s.curve s.opPoint01 = true) (hne : s.opPoint01 ≠ ident) (h : ecOrder s.curve s.opPoint01 = some n) :
    exec .cipherLoad s = succeed ((s.installCipher s.opPoint01 (toWord n)).setRes0 (toWord n)) := by
  simp only [exec, execCipherLoad, needs_of_true hv, hp, bne_iff_ne.mpr hne, Bool.and_self, if_true, h]

theorem exec_cipherLoad_of_search_none {s : State} (hv : s.curveValid = true)
    (hp : valid s.curve s.opPoint01 = true) (hne : s.opPoint01 ≠ ident) (h : ecOrder s.curve s.opPoint01 = none) :
    exec .cipherLoad s = raise .orderNotFound s := by
  simp only [exec, execCipherLoad, needs_of_true hv, hp, bne_iff_ne.mpr hne, Bool.and_self, if_true, h]

theorem exec_cipherLoad_of_invalid {s : State} (hv : s.curveValid = true)
    (hp : valid s.curve s.opPoint01 = false ∨ s.opPoint01 = ident) : exec .cipherLoad s = raise .invalidGenerator s :=
  (needs_of_true hv s _).trans (if_neg (generator_check_fails hp))

theorem exec_keygen {s : State} (hv : s.cipherValid = true) :
    exec .keygen s = succeed (s.setRes01 (ecSmul s.curve s.gen s.opScalar).x (ecSmul s.curve s.gen s.opScalar).y) :=
  needs_of_true hv s _

/-- The body that ENCRYPT and DECRYPT share: both operand points are checked, then the writes that lead to `u` take effect. -/
def pointsChecked (valid1 valid2 : Bool) (u s : State) : Out :=
  if valid1 then if valid2 then succeed u else raise .invalidPoint s else raise .invalidPoint s

theorem pointsChecked_of_valid {b1 b2 : Bool} (h1 : b1 = true) (h2 : b2 = true) (u s : State) :
    pointsChecked b1 b2 u s = succeed u := by
  rw [pointsChecked, if_pos h1, if_pos h2]

theorem pointsChecked_of_invalid {b1 b2 : Bool} (h : b1 = false ∨ b2 = false) (u s : State) :
    pointsChecked b1 b2 u s = raise .invalidPoint s := by
  obtain rfl | rfl := h
  · rfl
  · exact ite_self _

/-- The first point of the ciphertext that ENCRYPT answers: `r·G` (R203). -/
def cipherPoint1 (s : State) : Point := ecSmul s.curve s.gen s.opScalar

/-- The second one: `plain + r·pub` (R203). -/
def cipherPoint2 (s : State) : Point := ecAdd s.curve s.opPoint01 (ecSmul s.curve s.opPoint23 s.opScalar)

/-- The point that DECRYPT answers: `c2 + (−(priv·c1))` (R204). -/
def plainPoint (s : State) : Point := ecAdd s.curve s.opPoint23 (ecNeg s.curve (ecSmul s.curve s.opPoint01 s.opScalar))

theorem exec_encrypt {s : State} (hv : s.cipherValid = true) :
    exec .encrypt s = pointsChecked (valid s.curve s.opPoint01) (valid s.curve s.opPoint23)
      ((s.setRes01 (cipherPoint1 s).x (cipherPoint1 s).y).setRes23 (cipherPoint2 s).x (cipherPoint2 s).y) s :=
  needs_of_true hv s _

theorem exec_decrypt {s : State} (hv : s.cipherValid = true) :
    exec .decrypt s = pointsChecked (valid s.curve s.opPoint01) (valid s.curve s.opPoint23)
      (s.setRes01 (plainPoint s).x (plainPoint s).y) s :=
  needs_of_true hv s _

theorem exec_encrypt_of_valid {s : State} (hv : s.cipherValid = true) (h1 : valid s.curve s.opPoint01 = true)
    (h2 : valid s.curve s.opPoint23 = true) :
    exec .encrypt s =
      succeed ((s.setRes01 (cipherPoint1 s).x (cipherPoint1 s).y).setRes23 (cipherPoint2 s).x (cipherPoint2 s).y) :=
  (exec_encrypt hv).trans (pointsChecked_of_valid h1 h2 _ s)

theorem exec_decrypt_of_valid {s : State} (hv : s.cipherValid = true) (h1 : valid s.curve s.opPoint01 = true)
    (h2 : valid s.curve s.opPoint23 = true) :
    exec .decrypt s = succeed (s.setRes01 (plainPoint s).x (plainPoint s).y) :=
  (exec_decrypt hv).trans (pointsChecked_of_valid h1 h2 _ s)

/-! ### The statements about single commands -/

/-- Settles O39: the generator check goes first; then the order search answers the least multiple that is IDENT, or nothing. -/
theorem cipherLoadInstallsTheGenerator : Obligations.CipherLoadInstallsTheGenerator := by
  refine ⟨rfl, fun s hv => ⟨fun n hp hne h1 hn hmul hleast => ?_, fun hp hne hnone => ?_, exec_cipherLoad_of_invalid hv⟩⟩
  · exact exec_cipherLoad_of_search_some hv hp hne (ecOrder_eq_some.mpr ⟨h1, hn, hmul, hleast⟩)
  · exact exec_cipherLoad_of_search_none hv hp hne (ecOrder_eq_none.mpr hnone)

/-- Settles O40: past the prologue KEYGEN checks nothing. -/
theorem keygenGivesThePublicPoint : Obligations.KeygenGivesThePublicPoint :=
  ⟨rfl, fun _ hv => exec_keygen hv⟩

/-- Settles O41: both operand points are valid, or one of them is not. -/
theorem encryptGivesTheCiphertext : Obligations.EncryptGivesTheCiphertext :=
  ⟨rfl, fun s hv =>
    ⟨exec_encrypt_of_valid hv, fun h => (exec_encrypt hv).trans (pointsChecked_of_invalid h _ s)⟩⟩

/-- Settles O42: both ciphertext points are valid, or one of them is not. -/
theorem decryptGivesThePlainPoint : Obligations.DecryptGivesThePlainPoint :=
  ⟨rfl, fun s hv =>
    ⟨exec_decrypt_of_valid hv, fun h => (exec_decrypt hv).trans (pointsChecked_of_invalid h _ s)⟩⟩

/-! ### The round trip -/

theorem ecSmul_valid {c : Curve} (hc : CurveSound c) {p : Point} (h : valid c p = true) (k : Nat) :
    valid c (ecSmul c p k) = true := by
  obtain ⟨P, hP⟩ := exists_rep hc h
  exact (rep_smul hc hP k).valid hc

/-- Sender and receiver reach the same shared point: `r·(priv·G) = priv·(r·G)`. -/
theorem ecSmul_comm {c : Curve} (hc : CurveSound c) {p : Point} (h : valid c p = true) (j k : Nat) :
    ecSmul c (ecSmul c p j) k = ecSmul c (ecSmul c p k) j := by
  have := Fact.mk hc.q_prime
  obtain ⟨P, hP⟩ := exists_rep hc h
  have hjk := rep_smul hc (rep_smul hc hP j) k
  rw [smul_comm] at hjk
  exact hjk.inj (rep_smul hc (rep_smul hc hP k) j)

theorem ecAdd_ecNeg_cancel {c : Curve} (hc : CurveSound c) {m p : Point} (hm : valid c m = true) (hp : valid c p = true) :
    ecAdd c (ecAdd c m p) (ecNeg c p) = m := by
  rw [ecAdd_assoc hc hm hp (ecNeg_valid hc hp), ecAdd_ecNeg hc hp, ecAdd_ident_right]

/-- The identity that R205 gives as its reason: `(m + r·(priv·G)) − priv·(r·G) = m`. -/
theorem elGamal_cancel {c : Curve} (hc : CurveSound c) {g m : Point} (hg : valid c g = true) (hm : valid c m = true)
    (priv r : Nat) :
    ecAdd c (ecAdd c m (ecSmul c (ecSmul c g priv) r)) (ecNeg c (ecSmul c (ecSmul c g r) priv)) = m := by
  rw [ecSmul_comm hc hg r priv]
  exact ecAdd_ecNeg_cancel hc hm (ecSmul_valid hc (ecSmul_valid hc hg priv) r)

/-- Settles O60: the public point and both ciphertext points pass the checks of ENCRYPT and DECRYPT, as multiples of G and a sum of
valid points; then the shared point cancels. -/
theorem elGamalRoundTrip : Obligations.ElGamalRoundTrip := by
  intro s m priv r hinv hv hm
  have hc := hinv.curve (hinv.cipher_needs_curve hv)
  have hg := (hinv.cipher hv).valid_gen
  have hpub := ecSmul_valid hc hg priv.toNat
  have hc1 := ecSmul_valid hc hg r.toNat
  have hc2 := ecAdd_valid hc hm (ecSmul_valid hc hpub r.toNat)
  refine ⟨_, _, _, exec_keygen ?ready_keygen, exec_encrypt_of_valid ?ready_encrypt ?valid_plain ?valid_pub,
    exec_decrypt_of_valid ?ready_decrypt ?valid_c1 ?valid_c2, rfl, ?cancels⟩
  case ready_keygen | ready_encrypt | ready_decrypt => exact hv
  case valid_plain => exact hm
  case valid_pub => exact hpub
  case valid_c1 => exact hc1
  case valid_c2 => exact hc2
  case cancels => exact elGamal_cancel hc hg hm priv.toNat r.toNat

end Sys2Proof.Machine
end

section
/-! The point-encoding commands (`43_point_encoding.md` R230 to R236): what MAP_BUILD, ENCODE and DECODE answer once their flag is
set, the properties of a built map, which are those of the multiples of G in the group of valid points, and the round trip. -/

namespace Sys2Proof.Machine

/-! ### How the commands complete -/

theorem exec_mapBuild_of_fits {s : State} (hv : s.cipherValid = true) (hn : s.orderN.toNat ≤ s.mapDepth) :
    exec .mapBuild s = succeed (s.installMap (mapping s)) :=
  (needs_of_true hv s _).trans (if_neg (Nat.not_lt.mpr hn))

theorem exec_mapBuild_of_depth_lt {s : State} (hv : s.cipherValid = true) (hn : s.mapDepth < s.orderN.toNat) :
    exec .mapBuild s = raise .mapCapacity s :=
  (needs_of_true hv s _).trans (if_pos hn)

/-- What MAP_BUILD leaves to be read: the new points below N, the old entries from N on, written before or not. -/
theorem mapRead_installMap (f : Nat → Point) (s : State) (e : ErrCode) (i : Nat) :
    mapRead ((s.installMap f).complete e) i = if i < s.orderN.toNat then f i else mapRead s i := by
  have hread : Memory.read ((s.installMap f).complete e).mapRam i
      = if i < s.orderN.toNat then some (f i) else Memory.read s.mapRam i := Memory.read_fill f _ _ i
  by_cases hi : i < s.orderN.toNat
  · rw [mapRead, hread, if_pos hi, if_pos hi]
  · rw [mapRead, hread, if_neg hi, if_neg hi]; rfl

theorem exec_encodeSymbol_of_lt {s : State} (hv : s.mapValid = true) (hn : s.orderN.toNat ≤ s.mapDepth)
    (hs : s.opSymbol < s.orderN.toNat) :
    exec .encodeSymbol s = succeed (s.setRes01 (mapRead s s.opSymbol).x (mapRead s s.opSymbol).y) :=
  (needs_of_true hv s _).trans
    ((if_neg (Nat.not_le.mpr hs)).trans (if_neg (Nat.not_le.mpr (hs.trans_le hn))))

theorem exec_encodeSymbol_of_order_le {s : State} (hv : s.mapValid = true) (hs : s.orderN.toNat ≤ s.opSymbol) :
    exec .encodeSymbol s = raise .symbolRange s :=
  (needs_of_true hv s _).trans (if_pos hs)

theorem exec_decodePoint_of_least {s : State} {i : Nat} (hv : s.mapValid = true) (hn : s.orderN.toNat ≤ s.mapDepth)
    (hi : i < s.orderN.toNat) (hmatch : mapRead s i = s.opPoint01) (hleast : ∀ j, j < i → mapRead s j ≠ s.opPoint01) :
    exec .decodePoint s = succeed (s.setRes0 (toWord i)) := by
  have hsearch : least 0 (min s.orderN.toNat s.mapDepth) (fun j => decide (mapRead s j = s.opPoint01)) = some i :=
    least_eq_some.mpr ⟨Nat.zero_le i, hi.trans_le (le_min le_rfl hn), decide_eq_true hmatch,
      fun j _ hj => decide_eq_false (hleast j hj)⟩
  simp only [exec, execDecodePoint, needs_of_true hv, hsearch]

theorem exec_decodePoint_of_no_match {s : State} (hv : s.mapValid = true) (hn : s.orderN.toNat ≤ s.mapDepth)
    (hnone : ∀ j, j < s.orderN.toNat → mapRead s j ≠ s.opPoint01) : exec .decodePoint s = raise .unknownPoint s := by
  have hsearch : least 0 (min s.orderN.toNat s.mapDepth) (fun j => decide (mapRead s j = s.opPoint01)) = none :=
    least_eq_none.mpr fun j _ hj => decide_eq_false (hnone j (hj.trans_le (min_le_left _ _)))
  simp only [exec, execDecodePoint, needs_of_true hv, hsearch, if_neg (Nat.not_lt.mpr hn)]

/-! ### The statements about single commands -/

/-- Settles O43: the entries are those that the loop of MAP_BUILD leaves. -/
theorem mapBuildFillsTheMap : Obligations.MapBuildFillsTheMap := by
  refine ⟨rfl, fun s hv => ⟨fun hn => ⟨_, exec_mapBuild_of_fits hv hn, rfl, fun i hi => ?_, fun i hi => ?_⟩,
    exec_mapBuild_of_depth_lt hv⟩⟩
  · exact (mapRead_installMap _ s _ i).trans (if_pos hi)
  · exact (mapRead_installMap _ s _ i).trans (if_neg (Nat.not_lt.mpr hi))

/-- Settles O44: a symbol below N passes both range checks, any other fails the first. -/
theorem encodeReadsTheMapEntry : Obligations.EncodeReadsTheMapEntry :=
  ⟨rfl, fun _ hv => ⟨exec_encodeSymbol_of_lt hv, exec_encodeSymbol_of_order_le hv⟩⟩

/-- Settles O45: with every entry below N there, the search answers the least match or nothing. -/
theorem decodeFindsTheLeastIndex : Obligations.DecodeFindsTheLeastIndex :=
  ⟨rfl, fun _ hv hn => ⟨fun _ => exec_decodePoint_of_least hv hn, exec_decodePoint_of_no_match hv hn⟩⟩

/-! ### Multiples of the generator -/

theorem ecSmul_zero (c : Curve) (p : Point) : ecSmul c p 0 = ident := rfl

theorem ecSmul_one (c : Curve) (p : Point) : ecSmul c p 1 = p := ecAdd_ident_left c p

/-- Points of the engine are equal exactly when they stand for the same point of the group. -/
theorem Rep.eq_iff {c : Curve} {p p' : Point} {P P' : c.weier.Point} (h : Rep c p P) (h' : Rep c p' P') :
    p = p' ↔ P = P' := by
  constructor
  · rintro rfl; exact h.uniq h'
  · rintro rfl; exact h.inj h'

/-- The order that the cipher context holds is the order of G in the group (`10_state.md` R44). -/
theorem CipherSound.addOrderOf_eq {c : Curve} (hc : CurveSound c) {g : Point} {n : Nat} (hg : CipherSound c g n)
    {G : c.weier.Point} (hG : Rep c g G) :
    letI := Fact.mk hc.q_prime
    addOrderOf G = n := by
  have := Fact.mk hc.q_prime
  have hzero : ∀ k, ecSmul c g k = ident ↔ k • G = 0 := fun k => (rep_smul hc hG k).eq_iff (rep_ident c)
  exact (addOrderOf_eq_iff hg.n_pos).mpr
    ⟨(hzero n).mp hg.order_mul, fun k hk hpos => mt (hzero k).mpr (hg.order_least k hpos hk)⟩

/-- Two multiples of G are equal exactly when their multipliers agree modulo N (R232). -/
theorem CipherSound.ecSmul_eq_iff {c : Curve} (hc : CurveSound c) {g : Point} {n : Nat} (hg : CipherSound c g n) (j k : Nat) :
    ecSmul c g j = ecSmul c g k ↔ j ≡ k [MOD n] := by
  have := Fact.mk hc.q_prime
  obtain ⟨G, hG⟩ := exists_rep hc hg.valid_gen
  rw [(rep_smul hc hG j).eq_iff (rep_smul hc hG k), nsmul_eq_nsmul_iff_modEq, hg.addOrderOf_eq hc hG]

/-- A generator is not IDENT, so that its order is at least 2 (R231, corner case N = 2). -/
theorem CipherSound.one_lt {c : Curve} {g : Point} {n : Nat} (hg : CipherSound c g n) : 1 < n := by
  refine lt_of_le_of_ne hg.n_pos fun h => hg.gen_ne ?_
  rw [← ecSmul_one c g, h]
  exact hg.order_mul

/-! ### The built map -/

/-- An entry of a built map is the multiple of G that R230 gives it. -/
theorem EngineInv.mapRead_eq {s : State} (hs : EngineInv s) (hv : s.mapValid = true) {i : Nat} (hi : i < s.orderN.toNat) :
    mapRead s i = ecSmul s.curve s.gen i := by
  rw [mapRead, hs.map_built hv i hi]

/-- No two entries of a built map are equal. -/
theorem EngineInv.mapRead_inj {s : State} (hs : EngineInv s) (hv : s.mapValid = true) {i j : Nat} (hi : i < s.orderN.toNat)
    (hj : j < s.orderN.toNat) (h : mapRead s i = mapRead s j) : i = j := by
  have hci := hs.map_needs_cipher hv
  rw [hs.mapRead_eq hv hi, hs.mapRead_eq hv hj,
    (hs.cipher hci).ecSmul_eq_iff (hs.curve (hs.cipher_needs_curve hci))] at h
  exact h.eq_of_lt_of_lt hi hj

/-- Settles O58: the entries are the multiples of G below its order; a multiple from N on is the one of its residue. -/
theorem builtMapIsBijective : Obligations.BuiltMapIsBijective := by
  intro s hs hv
  have hci := hs.map_needs_cipher hv
  have hc := hs.curve (hs.cipher_needs_curve hci)
  have hg := hs.cipher hci
  refine ⟨?ident, ?gen, fun i hi => ?valid, fun i j hij hj heq => ?distinct,
    fun k => ⟨k % s.orderN.toNat, Nat.mod_lt k hg.n_pos, ?multiple⟩⟩
  case ident => exact (hs.mapRead_eq hv hg.n_pos).trans (ecSmul_zero _ _)
  case gen => exact (hs.mapRead_eq hv hg.one_lt).trans (ecSmul_one _ _)
  case valid =>
    rw [hs.mapRead_eq hv hi]
    exact ecSmul_valid hc hg.valid_gen i
  case distinct => exact hij.ne (hs.mapRead_inj hv (hij.trans hj) hj heq)
  case multiple =>
    rw [hs.mapRead_eq hv (Nat.mod_lt k hg.n_pos)]
    exact (hg.ecSmul_eq_iff hc _ _).mpr (Nat.mod_modEq k _)

/-! ### The round trip -/

/-- Settles O59: DECODE searches the same map, and the entry that ENCODE gave matches at no lesser index. -/
theorem encodingRoundTrip : Obligations.EncodingRoundTrip := by
  intro s hs hv hsym
  have hn := hs.map_fits hv
  refine ⟨_, _, exec_encodeSymbol_of_lt hv hn hsym, exec_decodePoint_of_least hv hn hsym rfl fun j hj heq => ?least, rfl,
    toWord_of_toNat s.snap.op0⟩
  case least => exact hj.ne (hs.mapRead_inj hv (hj.trans hsym) hsym heq)

end Sys2Proof.Machine
end

section
/-! Command control (`44_command_control.md` R260 to R266): acceptance and overrun, the step that completes a command, and what no
completion touches and none that fails writes. -/

namespace Sys2Proof.Machine

/-! ### Acceptance and overrun -/

/-- While a command is pending, a write to CMD is lost and sets OVR (R262). -/
theorem busWrite_cmd_busy {s : State} {v : Word} (hp : s.pending = some v) (w : Word) :
    busWrite 0x0C#8 w s = { s with ovr := true } := by
  show writeCmd w s = _
  rw [writeCmd, hp]

/-- Settles O7: the write is admitted, and the idle engine accepts it. -/
theorem idleCommandWriteIsAccepted : Obligations.IdleCommandWriteIsAccepted := by
  intro s w rest hp hs
  have hstep : step s = .next (accept w { s with schedule := rest }) := by
    rw [step_wordWrite (by decide) hs]
    exact congrArg _ (busWrite_cmd_idle (s := { s with schedule := rest }) hp w)
  exact ⟨_, hstep, rfl, rfl, rfl, Bool.and_false s.ie⟩

/-- Settles O8: the write is admitted, and the busy engine sets OVR. -/
theorem busyCommandWriteSetsOverrun : Obligations.BusyCommandWriteSetsOverrun := by
  intro s v w rest hp hs
  rw [step_wordWrite (by decide) hs]
  exact congrArg _ (busWrite_cmd_busy (s := { s with schedule := rest }) hp w)

/-! ### The step that completes a command -/

theorem engineTurn_command {s : State} {w : Word} {i : Instr} (hp : s.pending = some w) (hd : decode w = .ok i) :
    engineTurn s = exec i s := by
  rw [engineTurn_pending hp, completeWord, hd]

/-- Settles O4: scheduled or with nothing scheduled, the step is the engine's turn. -/
theorem stepRunsDecodedCommand : Obligations.StepRunsDecodedCommand := by
  intro s w i hp hd
  refine ⟨fun hs => ?_, fun rest hs => ?_⟩
  · rw [step, hs]
    exact engineTurn_command hp hd
  · rw [step_event hs]
    exact engineTurn_command hp hd

/-- Settles O24: NOP has the word 0 by the opcode map, and its body is empty. -/
theorem nopCompletes : Obligations.NopCompletes :=
  ⟨rfl, fun _ h => decode_eq_ok_iff_encode.mp h, fun _ => rfl⟩

/-! ### Operand writes during a command -/

/-- A completion does not depend on OP0 to OP4: its operands are `snap` (R261). -/
theorem exec_ops {i : Instr} {s t : State} (h : exec i s = .next t) (o : Operands) :
    exec i { s with ops := o } = .next { t with ops := o } := by
  have hframe : s.withFrameOf t = t := completeWord_frame ((completeWord_encode i s).trans h)
  have ho := exec_withFrameOf i { s with ops := o } s
  rw [h, mapNext_next] at ho
  rw [← hframe]
  exact ho

/-- Settles O10: the completion by `exec_ops`, the acceptance and the five operand registers by what they store. -/
theorem runningCommandIgnoresOperandWrites : Obligations.RunningCommandIgnoresOperandWrites := by
  refine ⟨fun _ _ _ o h => exec_ops h o, fun _ _ => rfl, fun s off v hoff => ?_⟩
  simp only [List.mem_cons, List.not_mem_nil, or_false] at hoff
  obtain rfl | rfl | rfl | rfl | rfl := hoff
  all_goals exact ⟨rfl, rfl, rfl⟩

/-! ### Completion with an error -/

theorem completeWord_of_error {w : Word} {x : IllegalWord} (hd : decode w = .error x) (s : State) :
    completeWord w s = .next (s.complete .illegalCommand) := by
  rw [completeWord, hd, raise]

/-- A command that succeeds reports no error, so one that reports an error has made none of its writes (R264). -/
theorem exec_eq_complete_of_error {i : Instr} {s t : State} (h : exec i s = .next t) (he : t.errCode ≠ .noError) :
    t = s.complete t.errCode := by
  obtain ⟨e, -, rfl⟩ | ⟨u, -, rfl⟩ := exec_next_cases h
  · rfl
  · exact absurd rfl he

/-- Settles O48: an error is raised from the state before any write, by a command or for an illegal word. -/
theorem errorsWriteNothing : Obligations.ErrorsWriteNothing := by
  refine ⟨fun i s t h he => exec_eq_complete_of_error h he, fun w s t h he => ?_⟩
  obtain ⟨i, -, hc⟩ | ⟨-, hc⟩ := completeWord_eq (w := w) (s := s) <;> rw [hc] at h
  · exact exec_eq_complete_of_error h he
  · obtain rfl := Host.Outcome.next.inj h
    rfl

/-! ### The frame of a completion -/

theorem CompletionFrame.refl (s : State) : CompletionFrame s s := ⟨rfl, rfl, rfl, rfl, rfl, rfl, rfl, rfl, rfl⟩

/-- The completion itself writes ERR_CODE, BUSY and DONE only (R263). -/
theorem CompletionFrame.complete {s t : State} (h : CompletionFrame s t) (e : ErrCode) : CompletionFrame s (t.complete e) :=
  ⟨h.ie, h.ovr, h.cmd, h.ops, h.snap, h.mapcap, h.schedule, h.hostReads, h.resets⟩

/-- No command writes more than result registers and set-up (`30_encoding.md` R95). -/
theorem Writes.completionFrame {i : Instr} {s u : State} (h : Writes i s u) : CompletionFrame s u := by
  cases i
  case nop => obtain rfl := h; exact .refl _
  case inv | isValid | order | decodePoint => obtain ⟨v, rfl⟩ := h; constructor <;> rfl
  case sqrt | neg | add | dbl | smul | keygen | decrypt | encodeSymbol =>
    obtain ⟨v, w, rfl⟩ := h; constructor <;> rfl
  case atX | encrypt => obtain ⟨v, w, x, y, rfl⟩ := h; constructor <;> rfl
  case curveLoad => obtain ⟨-, rfl⟩ := h; constructor <;> rfl
  case cipherLoad => obtain ⟨-, n, -, -, -, rfl⟩ := h; constructor <;> rfl
  case mapBuild => obtain ⟨-, -, rfl⟩ := h; constructor <;> rfl

theorem exec_completionFrame {i : Instr} {s t : State} (h : exec i s = .next t) : CompletionFrame s t := by
  obtain ⟨e, -, rfl⟩ | ⟨u, hu, rfl⟩ := exec_next_cases h
  · exact (CompletionFrame.refl s).complete e
  · exact hu.completionFrame.complete .noError

theorem completeWord_completionFrame {w : Word} {s t : State} (h : completeWord w s = .next t) : CompletionFrame s t := by
  obtain ⟨i, -, hc⟩ | ⟨-, hc⟩ := completeWord_eq (w := w) (s := s) <;> rw [hc] at h
  · exact exec_completionFrame h
  · obtain rfl := Host.Outcome.next.inj h
    exact (CompletionFrame.refl s).complete _

theorem completeWord_pending {w : Word} {s t : State} (h : completeWord w s = .next t) : t.pending = none :=
  Option.not_isSome_iff_eq_none.mp (by simpa [State.busy] using (completeWord_ends h).1)

/-! ### The result registers of a completion (`10_state.md` R36) -/

theorem State.setRes0_res_of_notMem {k : Fin 4} (hk : k ∉ [(0 : Fin 4)]) (v : Word) (s : State) : (s.setRes0 v).res k = s.res k := by
  match k with
  | 0 => simp at hk
  | 1 | 2 | 3 => rfl

theorem State.setRes01_res_of_notMem {k : Fin 4} (hk : k ∉ [(0 : Fin 4), 1]) (v w : Word) (s : State) :
    (s.setRes01 v w).res k = s.res k := by
  match k with
  | 0 | 1 => simp at hk
  | 2 | 3 => rfl

theorem mem_allResultSlots (k : Fin 4) : k ∈ [(0 : Fin 4), 1, 2, 3] := by
  match k with
  | 0 | 1 | 2 | 3 => simp

/-- The writes of a command stay within the result registers that R95 names for it. -/
theorem Writes.res_of_notMem {i : Instr} {s u : State} (h : Writes i s u) {k : Fin 4} (hk : k ∉ resultSlots i) :
    u.res k = s.res k := by
  cases i
  case nop => obtain rfl := h; rfl
  case inv | isValid | order | decodePoint => obtain ⟨v, rfl⟩ := h; exact s.setRes0_res_of_notMem hk v
  case sqrt | neg | add | dbl | smul | keygen | decrypt | encodeSymbol =>
    obtain ⟨v, w, rfl⟩ := h; exact s.setRes01_res_of_notMem hk v w
  case atX | encrypt => exact absurd (mem_allResultSlots k) hk
  case curveLoad => obtain ⟨-, rfl⟩ := h; rfl
  case cipherLoad =>
    obtain ⟨-, n, -, -, -, rfl⟩ := h
    exact (s.installCipher s.opPoint01 (toWord n)).setRes0_res_of_notMem hk _
  case mapBuild => obtain ⟨-, -, rfl⟩ := h; rfl

theorem exec_res_of_notMem {i : Instr} {s t : State} (h : exec i s = .next t) {k : Fin 4} (hk : k ∉ resultSlots i) :
    t.res k = s.res k := by
  obtain ⟨e, -, rfl⟩ | ⟨u, hu, rfl⟩ := exec_next_cases h
  · rfl
  · exact hu.res_of_notMem hk

/-- Settles O50: the frame of a completed word, the frame and the result registers of a command, and an illegal word, which is
completed with no write at all. -/
theorem completionFrameOfEveryCommand : Obligations.CompletionFrameOfEveryCommand := by
  refine ⟨fun w s t h => ⟨completeWord_completionFrame h, completeWord_pending h, (completeWord_ends h).2⟩,
    fun i s t h => ⟨exec_completionFrame h, exec_pending h, exec_done h, fun k => exec_res_of_notMem h⟩,
    fun w x s t hd h => ?_⟩
  obtain rfl := Host.Outcome.next.inj ((completeWord_of_error hd s).symm.trans h)
  have hsetup : SetupFrame s (s.complete .illegalCommand) := (SetupFrame.refl s).complete _
  exact ⟨fun _ => rfl, hsetup.toConfigFrame, hsetup.mapFrame⟩

end Sys2Proof.Machine
end

section
/-! Errors and the interrupt (`60_exceptions.md` R280, R281, R290, R292): what a completion reports, when `irq` is high, the two
orders of a CMD write and a completion, and that no step stops the engine. -/

namespace Sys2Proof.Machine

/-! ### The interrupt output (R290) -/

/-- Every completion, whatever its code, leaves `irq` at CTRL.IE. -/
theorem completeWord_irq {w : Word} {s t : State} (h : completeWord w s = .next t) : t.irq = s.ie := by
  rw [State.irq, (completeWord_completionFrame h).ie, (completeWord_ends h).2, Bool.and_true]

/-- With DONE = 0 the interrupt output is low, whatever IE. -/
theorem irq_of_not_done {s : State} (h : s.done = false) : s.irq = false := by
  rw [State.irq, h, Bool.and_false]

/-- A write to CTRL leaves `irq` at DONE where it sets IE, and low where it clears it. -/
theorem writeCtrl_irq (v : Word) (s : State) : (writeCtrl v s).irq = (v.getLsbD 0 && s.done) := rfl

/-- A write to STATUS that acknowledges DONE lowers the interrupt output. -/
theorem writeStatus_irq_of_ack {v : Word} (hv : v.getLsbD 1 = true) (s : State) : (writeStatus v s).irq = false :=
  irq_of_not_done (by rw [writeStatus_done, hv, Bool.not_true, Bool.and_false])

/-- Settles O17: a completion raises DONE and keeps IE; a write to CTRL decides IE, and an acknowledgement, an acceptance and the
reset clear DONE. -/
theorem interruptIsLevelOfEnableAndDone : Obligations.InterruptIsLevelOfEnableAndDone := by
  refine ⟨fun _ => rfl, fun i s t h => completeWord_irq ((completeWord_encode i s).trans h),
    fun _ _ _ _ _ h => completeWord_irq h, fun s v hv => ?ieSet, fun s v hv => ?ieCleared,
    fun s v hv => writeStatus_irq_of_ack hv s, fun s w hp => ?accepted, fun _ => irq_of_not_done rfl⟩
  case ieSet => exact (writeCtrl_irq v s).trans (by rw [hv, Bool.true_and])
  case ieCleared => exact (writeCtrl_irq v s).trans (by rw [hv, Bool.false_and])
  case accepted =>
    rw [busWrite_cmd_idle hp]
    exact irq_of_not_done rfl

/-! ### The error codes (R281) -/

/-- A command reports no error, or one of those that the table gives it. -/
theorem exec_errCode {i : Instr} {s t : State} (h : exec i s = .next t) : t.errCode = .noError ∨ t.errCode ∈ raises i := by
  obtain ⟨e, he, rfl⟩ | ⟨u, -, rfl⟩ := exec_next_cases h
  · exact .inr he
  · exact .inl rfl

/-- Settles O49: the numbers by `ErrCode.code`, the codes of a command by the errors it can raise, and an illegal word raises
ILLEGAL_COMMAND. -/
theorem errorCodesAreThoseOfTheTable : Obligations.ErrorCodesAreThoseOfTheTable := by
  refine ⟨rfl, fun _ _ _ h => exec_errCode h, fun w s t x hd h => ?_⟩
  obtain rfl := Host.Outcome.next.inj ((completeWord_of_error hd s).symm.trans h)
  rfl

/-! ### A CMD write beside a completion (R292) -/

/-- A completion does not depend on OVR, and leaves it (`10_state.md` R28). -/
theorem completeWord_ovr {w : Word} {s t : State} (h : completeWord w s = .next t) (b : Bool) :
    completeWord w { s with ovr := b } = .next { t with ovr := b } := by
  have hovr := completeWord_withFrameOf w { s with ovr := b } s
  rw [h, mapNext_next] at hovr
  rw [← completeWord_frame h]
  exact hovr

/-- A CMD write just before the completion is lost and sets OVR; the completion then gives what it gives alone. -/
theorem run_write_then_completion {s t : State} {w : Word} {rest : List Event} (hp : s.pending = some w)
    (h : completeWord w { s with schedule := rest } = .next t) (w2 : Word) :
    Host.Core.run Sys2Proof.core 2 { s with schedule := wordWrite 0x0C#8 w2 :: .engine :: rest } = .next { t with ovr := true } := by
  have hwrite : step { s with schedule := wordWrite 0x0C#8 w2 :: .engine :: rest }
      = .next { s with schedule := .engine :: rest, ovr := true } := by
    rw [step_wordWrite (by decide) rfl]
    exact congrArg _ (busWrite_cmd_busy (s := { s with schedule := .engine :: rest }) hp w2)
  have hcomplete : step { s with schedule := .engine :: rest, ovr := true } = .next { t with ovr := true } :=
    (engineTurn_pending (s := { s with schedule := rest, ovr := true }) hp).trans (completeWord_ovr h true)
  exact run_succ (run_one hwrite) hcomplete

/-- A CMD write just after the completion finds the engine idle and is accepted. -/
theorem run_completion_then_write {s t : State} {w : Word} {rest : List Event} (hp : s.pending = some w)
    (h : completeWord w { s with schedule := rest } = .next t) (w2 : Word) :
    Host.Core.run Sys2Proof.core 2 { s with schedule := .engine :: wordWrite 0x0C#8 w2 :: rest } = .next (accept w2 t) := by
  obtain rfl : t.schedule = rest := (completeWord_completionFrame h).schedule
  have hcomplete : step { s with schedule := .engine :: wordWrite 0x0C#8 w2 :: t.schedule }
      = .next { t with schedule := wordWrite 0x0C#8 w2 :: t.schedule } :=
    step_perform (s := { s with schedule := t.schedule })
      ((engineTurn_pending (s := { s with schedule := t.schedule }) hp).trans h)
  have hwrite : step { t with schedule := wordWrite 0x0C#8 w2 :: t.schedule } = .next (accept w2 t) := by
    rw [step_wordWrite (by decide) rfl]
    exact congrArg _ (busWrite_cmd_idle (completeWord_pending h) w2)
  exact run_succ (run_one hcomplete) hwrite

/-- Settles O21: the run of each order; the completion keeps OVR and OP0 to OP4, which the acceptance copies. -/
theorem bothOrdersOfWriteAndCompletion : Obligations.BothOrdersOfWriteAndCompletion := by
  intro s t w w2 rest hp h
  have hframe := completeWord_completionFrame h
  exact ⟨⟨_, run_write_then_completion hp h w2, rfl⟩,
    ⟨_, run_completion_then_write hp h w2, rfl, hframe.ovr, hframe.ops⟩⟩

/-! ### No step stops the engine (R280) -/

theorem EngineInv.engineTurn_next {s : State} (hs : EngineInv s) : ∃ t, Machine.engineTurn s = .next t := by
  obtain ⟨-, h⟩ | ⟨w, -, h⟩ := engineTurn_cases s <;> rw [h]
  · exact ⟨s, rfl⟩
  · exact hs.completeWord_next w

/-- Settles O56: the engine's turn and the reset always answer a next state, and an access does where it is admitted. -/
theorem nothingStopsTheEngine : Obligations.NothingStopsTheEngine := by
  intro s hs
  obtain ⟨-, h⟩ | ⟨rest, -, h⟩ | ⟨a, rest, hsch, h⟩ | ⟨rest, -, h⟩ := step_cases s <;> rw [h]
  · exact .inl hs.engineTurn_next
  · exact .inl (hs.withSchedule rest).engineTurn_next
  · by_cases ha : a.admitted = true
    · exact .inl (hostAccess_admitted ha _)
    · exact .inr ⟨hostAccess_refused ha _, a, rest, hsch, eq_false_of_ne_true ha⟩
  · exact .inl ⟨_, rfl⟩

end Sys2Proof.Machine
end

section
/-! The reset input (`70_reset_and_hazards.md` R320, R321): what the registers read right after it, and that an event just before it
leaves no trace in the engine. -/

namespace Sys2Proof.Machine

/-! ### The registers after reset (R321) -/

/-- Right after reset the window reads as in the state of R321 for the same MAP_DEPTH. -/
theorem busRead_resetInput (off : BitVec 8) (s : State) :
    busRead off (resetInput s) = busRead off { State.reset with mapcap := s.mapcap } := by
  unfold busRead
  cases regAt off with
  | none => rfl
  | some r => cases r <;> rfl

theorem resetInput_ctrlWord (s : State) : (resetInput s).ctrlWord = 0#32 :=
  show State.reset.ctrlWord = 0#32 by decide

theorem resetInput_statusWord (s : State) : (resetInput s).statusWord = 0#32 :=
  show State.reset.statusWord = 0#32 by decide

/-- An offset that holds no register is the offset of none. -/
theorem ne_regOffset_of_regAt_eq_none {off : BitVec 8} (h : regAt off = none) (r : Reg) : off ≠ regOffset r :=
  fun ho => nomatch h.symm.trans (regAt_eq_some.mpr ho)

/-- The "reset" column of `10_state.md` R22: ID and MAPCAP read their constants, everything else, reserved offsets included, reads 0. -/
theorem busRead_resetInput_eq (off : BitVec 8) (s : State) :
    busRead off (resetInput s) =
      if off = 0x00#8 then 0x45430001#32 else if off = 0x58#8 then busRead 0x58#8 s else 0#32 := by
  cases hr : regAt off with
  | none =>
    rw [busRead, hr, if_neg (by exact ne_regOffset_of_regAt_eq_none hr .id),
      if_neg (by exact ne_regOffset_of_regAt_eq_none hr .mapcap)]
  | some r =>
    obtain rfl := regAt_eq_some.mp hr
    cases r
    case ctrl => exact resetInput_ctrlWord s
    case status => exact resetInput_statusWord s
    all_goals rfl

/-! ### An event just before the reset (R320) -/

/-- The reset sees nothing of a state but MAPCAP, the schedule, what the host has read and the counter of resets. -/
theorem resetInput_eq_of_kept {s t : State} (hm : t.mapcap = s.mapcap) (hs : t.schedule = s.schedule) (hr : t.resets = s.resets) :
    resetInput t = { resetInput s with hostReads := t.hostReads } := by
  rw [resetInput, resetInput, hm, hs, hr]

theorem engineTurn_completionFrame {s t : State} (h : engineTurn s = .next t) : CompletionFrame s t := by
  obtain ⟨-, he⟩ | ⟨w, -, he⟩ := engineTurn_cases s <;> rw [he] at h
  · obtain rfl := Host.Outcome.next.inj h
    exact .refl s
  · exact completeWord_completionFrame h

/-- An admitted host access or a turn of the engine, then the reset, ends as the reset alone. -/
theorem resetInput_after_perform {s t : State} {e : Event} (he : e ≠ .reset) (h : perform e s = .next t) :
    resetInput t = { resetInput s with hostReads := t.hostReads } := by
  cases e with
  | access a =>
    have hf := hostAccess_frame h
    exact resetInput_eq_of_kept hf.mapcap hf.schedule hf.resets
  | engine =>
    have hf := engineTurn_completionFrame h
    exact resetInput_eq_of_kept hf.mapcap hf.schedule hf.resets
  | reset => exact absurd rfl he

/-- Settles O16: a scheduled reset is `resetInput`, whose registers are those of R321 and which keeps nothing that an access or a
completion writes but what the host has read. -/
theorem resetInputPutsResetValues : Obligations.ResetInputPutsResetValues := by
  refine ⟨fun s rest hs => ⟨resetInput { s with schedule := rest }, step_event hs, rfl, rfl, rfl, rfl, rfl, rfl, rfl, rfl, rfl,
    fun off => ?_, fun off => (busRead_resetInput off _).symm⟩, fun _ _ _ => resetInput_after_perform⟩
  rw [busRead_resetInput_eq, busRead_schedule]

end Sys2Proof.Machine
end

section
/-! The two choices of the model that no rule of the spec states: the word that `withFetchWord` places runs next (log entry 1), and
reading a MAP RAM entry that does not exist is a fault (log entry 6). -/

namespace Sys2Proof.Machine

/-! ### The word placed for the next step (log entry 1) -/

/-- With the engine put first, the step is its turn, and what was scheduled stays. -/
theorem step_engineFirst (s : State) : step { s with schedule := engineFirst s.schedule } = engineTurn s := by
  have hkeep {es : List Event} (hs : s.schedule = es) : engineTurn { s with schedule := es } = engineTurn s := by rw [← hs]
  cases hs : s.schedule with
  | nil => exact hkeep hs
  | cons e rest => exact hkeep hs

/-- The step completes the placed word on the state that has accepted it. -/
theorem step_withFetchWord (s : State) (nbits w : Nat) :
    step (s.withFetchWord nbits w) = engineTurn (accept (BitVec.ofNat 32 (w % 2 ^ nbits)) s) :=
  step_engineFirst (accept _ s)

/-- Settles O5: the engine's turn comes first, and the word that it completes decodes to the command it encodes. -/
theorem fetchedWordRunsNext : Obligations.FetchedWordRunsNext := by
  intro s i
  rw [step_withFetchWord, Nat.mod_eq_of_lt (encode i).isLt, BitVec.ofNat_toNat, BitVec.setWidth_eq]
  exact engineTurn_command rfl (decode_encode i)

/-! ### Entries at MAP_DEPTH or more (log entry 6) -/

theorem exec_encodeSymbol_of_depth_le {s : State} (hv : s.mapValid = true) (hd : s.mapDepth ≤ s.opSymbol)
    (hs : s.opSymbol < s.orderN.toNat) : exec .encodeSymbol s = .fault .mapEntryAbsent :=
  (needs_of_true hv s _).trans ((if_neg (Nat.not_le.mpr hs)).trans (if_pos hd))

theorem exec_decodePoint_of_depth_lt {s : State} (hv : s.mapValid = true) (hn : s.mapDepth < s.orderN.toNat)
    (hnone : ∀ j, j < s.mapDepth → mapRead s j ≠ s.opPoint01) : exec .decodePoint s = .fault .mapEntryAbsent := by
  have hsearch : least 0 (min s.orderN.toNat s.mapDepth) (fun j => decide (mapRead s j = s.opPoint01)) = none :=
    least_eq_none.mpr fun j _ hj => decide_eq_false (hnone j (hj.trans_le (min_le_right _ _)))
  simp only [exec, execDecodePoint, needs_of_true hv, hsearch, if_pos hn]

/-- Settles O46: the symbol passes the check against N alone, and the search ends without a match short of N. -/
theorem absentMapEntryFaults : Obligations.AbsentMapEntryFaults :=
  fun _ hv => ⟨exec_encodeSymbol_of_depth_le hv, exec_decodePoint_of_depth_lt hv⟩

end Sys2Proof.Machine
end
